-- ==== Sys2Proof/Word.lean ====
section
/-! DEFINITION. The one word type of the machine: an 8-bit byte (00_scope.md R5, R6). -/

namespace Sys2Proof

/-- A byte: a register, a memory cell, the program counter, an opcode or an operand (R5 `XLEN`, `CELL`, `PCLEN`).
All values are unsigned 0..255 and every write is modulo 256 (R6, R10, R19). -/
abbrev Byte := BitVec 8

end Sys2Proof
end

