-- ==== Sys2Proof/Syntax.lean ====
section
/-! DEFINITION. The instructions: one constructor per row of spec/opcode_table.json, in the table's order
(30_encoding.md R57). An operand is the whole operand byte (R55, R56). -/

namespace Sys2Proof

/-- The 13 instructions. `r`, `ra`, `rb` are register operand bytes: 0..7 name a register, and 8..255 are legal
encodings that raise RegisterFault when the register is accessed (R55). `imm` is the immediate byte of LDI (R56). -/
inductive Instr where
  | hlt
  | ldi (r imm : Byte)
  | prn (r : Byte)
  | mul (ra rb : Byte)
  | add (ra rb : Byte)
  | push (r : Byte)
  | pop (r : Byte)
  | call (r : Byte)
  | ret
  | cmp (ra rb : Byte)
  | jmp (r : Byte)
  | jeq (r : Byte)
  | jne (r : Byte)
  deriving DecidableEq, Repr

/-- The encoding formats of R51 to R54. -/
inductive Format where
  | f0
  | f1
  | f2r
  | f2i
  deriving DecidableEq, Repr

end Sys2Proof
end

