-- ==== Sys2Proof/Decode.lean ====
section
/-! DEFINITION. Decoding (30_encoding.md R50 to R60, 40_fetch_decode_dispatch.md R73) and encoding, each written from
the opcode map of R57, and the numbering of spec/opcode_table.json. -/

namespace Sys2Proof

/-- Why bytes are no instruction. `illegalOpcode`: the first byte is none of the 13 opcodes (R58). `truncated`: a byte
list ends before its instruction does; the hardware cannot meet this, since it always fetches three bytes (R71, log entry 7). -/
inductive DecodeError where
  | illegalOpcode (ir : Byte)
  | truncated
  deriving DecidableEq, Repr

/-- The dispatch of R73: all 8 bits of `ir` are compared with the 13 opcodes of R57, and operand bytes the format has no
place for are ignored (R71). -/
def decode (ir op1 op2 : Byte) : Except DecodeError Instr :=
  match ir with
  | 0x01#8 => .ok .hlt
  | 0x82#8 => .ok (.ldi op1 op2)
  | 0x47#8 => .ok (.prn op1)
  | 0xA2#8 => .ok (.mul op1 op2)
  | 0xA0#8 => .ok (.add op1 op2)
  | 0x45#8 => .ok (.push op1)
  | 0x46#8 => .ok (.pop op1)
  | 0x50#8 => .ok (.call op1)
  | 0x11#8 => .ok .ret
  | 0xA7#8 => .ok (.cmp op1 op2)
  | 0x54#8 => .ok (.jmp op1)
  | 0x55#8 => .ok (.jeq op1)
  | 0x56#8 => .ok (.jne op1)
  | _ => .error (.illegalOpcode ir)

/-- The "format" column of R57. -/
def Instr.format : Instr → Format
  | .hlt => .f0
  | .ldi _ _ => .f2i
  | .prn _ => .f1
  | .mul _ _ => .f2r
  | .add _ _ => .f2r
  | .push _ => .f1
  | .pop _ => .f1
  | .call _ => .f1
  | .ret => .f0
  | .cmp _ _ => .f2r
  | .jmp _ => .f1
  | .jeq _ => .f1
  | .jne _ => .f1

/-- How many operand bytes a format has (R51 to R54). -/
def Format.operandCount : Format → Nat
  | .f0 => 0
  | .f1 => 1
  | .f2r => 2
  | .f2i => 2

/-- The length in bytes, "matching the operand count + 1" (R50). -/
def Instr.length (i : Instr) : Nat := i.format.operandCount + 1

/-- The "opcode" column of R57. -/
def Instr.opcode : Instr → Byte
  | .hlt => 0x01
  | .ldi _ _ => 0x82
  | .prn _ => 0x47
  | .mul _ _ => 0xA2
  | .add _ _ => 0xA0
  | .push _ => 0x45
  | .pop _ => 0x46
  | .call _ => 0x50
  | .ret => 0x11
  | .cmp _ _ => 0xA7
  | .jmp _ => 0x54
  | .jeq _ => 0x55
  | .jne _ => 0x56

/-- The operand bytes in ascending address order (R51 to R54). -/
def Instr.operandBytes : Instr → List Byte
  | .hlt => []
  | .ldi r imm => [r, imm]
  | .prn r => [r]
  | .mul ra rb => [ra, rb]
  | .add ra rb => [ra, rb]
  | .push r => [r]
  | .pop r => [r]
  | .call r => [r]
  | .ret => []
  | .cmp ra rb => [ra, rb]
  | .jmp r => [r]
  | .jeq r => [r]
  | .jne r => [r]

/-- The bytes of an instruction, the opcode byte first (R30, R50). -/
def encode (i : Instr) : List Byte := i.opcode :: i.operandBytes

/-- The opcode bytes of R57, in the table's order. -/
def opcodeBytes : List Byte :=
  [0x01, 0x82, 0x47, 0xA2, 0xA0, 0x45, 0x46, 0x50, 0x11, 0xA7, 0x54, 0x55, 0x56]

/-- Decode the instruction at the head of a byte list, and give the bytes after it. Total; a list shorter than its
instruction is refused by name (log entry 7). -/
def decodeBytes : List Byte → Except DecodeError (Instr × List Byte)
  | [] => .error .truncated
  | ir :: rest =>
    match decode ir (rest.getD 0 0) (rest.getD 1 0) with
    | .error e => .error e
    | .ok i =>
      if rest.length + 1 < i.length then .error .truncated else .ok (i, rest.drop (i.length - 1))

/-- The bytes, in address order, of an instruction that spec/opcode_table.json writes as one number of `nbits` bits. The
table puts the opcode byte MOST significant (R57, last paragraph; log entry 4), so byte `k` is the `k`-th from the top. -/
def tableWordBytes (nbits w : Nat) : List Byte :=
  let n := (nbits + 7) / 8
  (List.range n).map fun k => BitVec.ofNat 8 (w >>> (8 * (n - 1 - k)))

/-- The three bytes a fetch meets for such an instruction: its own, then zeros up to the longest instruction. -/
def tableWordFetch (nbits w : Nat) : Byte × Byte × Byte :=
  let bs := tableWordBytes nbits w
  (bs.getD 0 0, bs.getD 1 0, bs.getD 2 0)

/-- The instruction the decoder reads from a table word (none where it refuses). -/
def decodeTableWord (nbits w : Nat) : Option Instr :=
  match tableWordFetch nbits w with
  | (b0, b1, b2) => (decode b0 b1 b2).toOption

end Sys2Proof
end

