-- ==== Sys2Proof/Config.lean ====
section
/-! DEFINITION. The implementation parameters of 00_scope.md R5 that are values. The sizes `NREG` = 8, `MEMSIZE` = 256
and the 8-bit widths stand in the types and in the checks of the operations; `CMP_MODE`, `OOR_POLICY` and
`UNKNOWN_OPCODE_POLICY` have one value each in this hardware and are the behaviour of the operations that they govern. -/

namespace Sys2Proof.Config

/-- `SPREG`: the register used as the stack pointer (R5, R11). -/
abbrev spReg : Fin 8 := 7

/-- `RESET_PC` (R5, R26). -/
abbrev resetPc : Byte := 0x00

/-- `RESET_GPR`: registers 0..6 after reset (R5, R27). -/
abbrev resetGpr : Byte := 0x00

/-- `MEM_FILL`: what a cell that neither the image nor an instruction wrote holds (R5, R29). -/
abbrev memFill : Byte := 0x00

/-- `LOAD_BASE`: the address of the first image byte (R5, R185). -/
abbrev loadBase : Nat := 0

/-- DESIGN CHOICE, unsafe (log entry 1): the value of the open parameter `SP_RESET` in the fixed state `State.reset`.
The spec gives none (R5, R27, D8): `State.resetWith` takes it as an argument, and every statement about reset
is made for every value of that argument. -/
def spReset : Byte := 0x00

end Sys2Proof.Config
end

