-- ==== Sys2Proof/Machine/State.lean ====
section
/-! DEFINITION. The state of the core as plain data (10_state.md), the reset state, and the reasons a step can end
without a next state. -/

namespace Sys2Proof.Machine

/-- The three causes of a fault (60_exceptions.md R140). Their numbers are in `Cause.code`. -/
inductive Cause where
  | illegalOpcode
  | addressFault
  | registerFault
  deriving DecidableEq, Repr

/-- What the fault latch holds once it is set (R18): the cause, the offending opcode byte, address or register index, and
the `pc` at the start of the faulting step. `info` is an integer, since the address 256 is no byte (R140). -/
structure FaultRecord where
  cause : Cause
  info : Nat
  fpc : Byte
  deriving DecidableEq, Repr

/-- Memory: the cells that hold something else than `MEM_FILL`, by strictly rising address (`Memory.wf`); a cell that is
not listed holds `MEM_FILL` (R19, R29, log entry 3). -/
abbrev Memory := List Host.Cell

/-- The whole state of the machine (10_state.md, "and nothing else"). -/
structure State where
  /-- The general registers x[0] .. x[7]; x[7] is the stack pointer (R10, R11). -/
  x : Vector Byte 8
  /-- The program counter: during an instruction, the address of its opcode byte (R13). -/
  pc : Byte
  /-- The flag `E` (R15). -/
  equal : Bool
  /-- The flag `L` (R15). -/
  less : Bool
  /-- The flag `G` (R15). -/
  greater : Bool
  /-- The running flag (R17). -/
  running : Bool
  /-- The fault latch (R18). -/
  fault : Option FaultRecord
  /-- The 256 memory cells (R19). -/
  mem : Memory
  /-- The output channel's history, oldest first (R21). -/
  out : List Byte
  deriving DecidableEq, Repr

/-- The state after reset, before an image is loaded, for a given `SP_RESET` (70_reset_and_hazards.md R165; R26 to R29). -/
def State.resetWith (spReset : Byte) : State :=
  { x := (Vector.replicate 8 Config.resetGpr).set 7 spReset
    pc := Config.resetPc
    equal := false
    less := false
    greater := false
    running := true
    fault := none
    mem := []
    out := [] }

/-- The state after reset at the value `Config.spReset` of the open parameter `SP_RESET` (log entry 1). -/
def State.reset : State := State.resetWith Config.spReset

/-- Reasons to stop with no next state. There is none: a fault of this hardware is STATE (the latch `State.fault`, R18,
R146), so the step that raises it has a next state, and a stopped core's step request does nothing (R187; log entry 9).
Safe: nothing can be proved of a stop that the machine does not have. -/
inductive Fault where
  deriving DecidableEq, Repr

/-- Reasons to refuse an instruction. -/
inductive Refusal where
  /-- Raised only by an arm of `exec` whose instruction has no meaning yet; no arm does. Safe: the model stops. -/
  | notModelled (mnemonic : String)
  deriving DecidableEq, Repr

end Sys2Proof.Machine
end

