-- ==== Sys2Proof/Machine/Ops.lean ====
section
/-! DEFINITION. The named operations over registers, memory, the program counter and the fault latch: the primitives of
00_scope.md R7. A primitive that can raise answers `Except Raise _`; `attempt` turns a raise into fault entry (R146). -/

namespace Sys2Proof.Machine

/-- The answer of a step or of an instruction. -/
abbrev Result := Host.Outcome State Fault Refusal

/-- A raise: its cause and the info it records (R140). -/
structure Raise where
  cause : Cause
  info : Nat
  deriving DecidableEq, Repr

/-- The code of a cause (R140). -/
def Cause.code : Cause → Nat
  | .illegalOpcode => 1
  | .addressFault => 2
  | .registerFault => 3

/-- Fault entry: set the latch to (cause, info, pc), clear `running`, and nothing else (R146). -/
def State.raise (s : State) (r : Raise) : State :=
  { s with running := false, fault := some { cause := r.cause, info := r.info, fpc := s.pc } }

/-- Run an instruction's body, which answers the state with every effect committed or the first raise it meets. On a raise
nothing is committed and the fault is entered from the state before the instruction (R76, R146). -/
def attempt (s : State) (body : Except Raise State) : Result :=
  match body with
  | .ok t => .next t
  | .error r => .next (s.raise r)

/-! ### Memory (20_memory.md) -/

/-- The byte at an address: the listed one, else `MEM_FILL` (R29, R33). -/
def Memory.read (m : Memory) (a : Nat) : Byte :=
  match m with
  | [] => Config.memFill
  | (b, w) :: rest => if a = b then w else Memory.read rest a

/-- Write the byte at an address, keeping the canonical form: writing `MEM_FILL` removes the entry. -/
def Memory.write (m : Memory) (a : Nat) (v : Byte) : Memory :=
  match m with
  | [] => if v = Config.memFill then [] else [(a, v)]
  | (b, w) :: rest =>
    if a < b then (if v = Config.memFill then (b, w) :: rest else (a, v) :: (b, w) :: rest)
    else if a = b then (if v = Config.memFill then rest else (a, v) :: rest)
    else (b, w) :: Memory.write rest a v

/-- Every listed address is at least `lo` and at most 255, addresses rise strictly, and no entry holds `MEM_FILL`. -/
def Memory.wfFrom (lo : Nat) (m : Memory) : Bool :=
  match m with
  | [] => true
  | (a, v) :: rest =>
    decide (lo ≤ a) && decide (a < 256) && decide (v ≠ Config.memFill) && Memory.wfFrom (a + 1) rest

/-- The canonical form of memory. -/
def Memory.wf (m : Memory) : Bool := Memory.wfFrom 0 m

/-- `MemRead(addr, 1)` (R7, R32, R35): no wrap, no mask. -/
def State.memRead (s : State) (addr : Nat) : Except Raise Byte :=
  if 255 < addr then .error ⟨.addressFault, addr⟩ else .ok (s.mem.read addr)

/-- `MemWrite(addr, 1, v)` (R7, R32, R35): no wrap, no mask. -/
def State.memWrite (s : State) (addr : Nat) (v : Byte) : Except Raise State :=
  if 255 < addr then .error ⟨.addressFault, addr⟩ else .ok { s with mem := s.mem.write addr v }

/-! ### Registers (10_state.md R10 to R14) -/

/-- `x[i]` for an index that names a register. -/
def State.reg (s : State) (i : Fin 8) : Byte := s.x[i]

/-- `x[i] <- v` for an index that names a register. -/
def State.setReg (s : State) (i : Fin 8) (v : Byte) : State := { s with x := s.x.set i v }

/-- `sp`, the alias of `x[7]` (R11). -/
def State.sp (s : State) : Byte := s.reg Config.spReg

/-- `pc <- target` (R120). -/
def State.setPc (s : State) (target : Byte) : State := { s with pc := target }

/-- `advance(L)` (40_fetch_decode_dispatch.md R75): `pc` never wraps. -/
def State.advance (s : State) (L : Nat) : Except Raise State :=
  if 255 < s.pc.toNat + L then .error ⟨.addressFault, s.pc.toNat + L⟩
  else .ok (s.setPc (BitVec.ofNat 8 (s.pc.toNat + L)))

/-! ### The stack (43_stack.md R110), shared by PUSH, POP, CALL and RET (44_control_flow.md R134) -/

/-- `x[7] <- (x[7] - 1) mod 256`. -/
def State.decSp (s : State) : State := s.setReg Config.spReg (s.sp - 1)

/-- `x[7] <- (x[7] + 1) mod 256`. -/
def State.incSp (s : State) : State := s.setReg Config.spReg (s.sp + 1)

/-- `MemWrite(x[7], 1, v)`. -/
def State.storeTop (s : State) (v : Byte) : Except Raise State := s.memWrite s.sp.toNat v

/-- `MemRead(x[7], 1)`. -/
def State.loadTop (s : State) : Except Raise Byte := s.memRead s.sp.toNat

/-! ### The running flag and the output channel -/

/-- `running <- 0` (R17, R86). -/
def State.halt (s : State) : State := { s with running := false }

/-- `Output(v)`: append `v` to `out` (R21, R189). -/
def State.output (s : State) (v : Byte) : State := { s with out := s.out ++ [v] }

end Sys2Proof.Machine
end

