-- ==== Sys2Proof/Machine/Flags.lean ====
section
/-! DEFINITION. The flag computation: the comparison of CMP (42_alu.md R97, R103). No other instruction writes a flag
(10_state.md R16). -/

namespace Sys2Proof.Machine

/-- The three flags of one comparison (R15). -/
structure Flags where
  equal : Bool
  less : Bool
  greater : Bool
  deriving DecidableEq, Repr

/-- Unsigned comparison, one-hot: the matching flag is set and the other two are cleared (R97, R103). -/
def compareFlags (a b : Byte) : Flags :=
  if a = b then { equal := true, less := false, greater := false }
  else if a.toNat < b.toNat then { equal := false, less := true, greater := false }
  else { equal := false, less := false, greater := true }

/-- Write all three flags (R103). -/
def State.setFlags (s : State) (f : Flags) : State :=
  { s with equal := f.equal, less := f.less, greater := f.greater }

end Sys2Proof.Machine
end

