-- ==== Sys2Proof/Machine/Operands.lean ====
section
/-! DEFINITION. The operand forms (30_encoding.md R55, R56): a register operand byte and the immediate byte. The only
other operand, the stack cell at `x[7]`, is `State.loadTop` and `State.storeTop` in Ops.lean (43_stack.md R110). -/

namespace Sys2Proof.Machine

/-- A register operand, resolved when the instruction accesses the register: the whole byte is the index, and 8..255 raise
RegisterFault, never reduced to three bits (R55, R143). -/
def regOperand (r : Byte) : Except Raise (Fin 8) :=
  if h : r.toNat < 8 then .ok ⟨r.toNat, h⟩ else .error ⟨.registerFault, r.toNat⟩

/-- The immediate operand: the byte, unchanged (R56). -/
def immOperand (imm : Byte) : Byte := imm

end Sys2Proof.Machine
end

