-- ==== Sys2Proof/Machine/Alu.lean ====
section
/-! DEFINITION. The ALU and its three instructions ADD, MUL and CMP (42_alu.md). -/

namespace Sys2Proof.Machine

/-- The three operations of the ALU, and no other (R95, R77). -/
inductive AluOp where
  | add
  | mul
  | cmp
  deriving DecidableEq, Repr

/-- The ALU, operating in place on the register file (R95): ADD and MUL write the first register modulo 256 (R96) and no
flag; CMP writes the flags and no register. -/
def alu (op : AluOp) (a b : Fin 8) (s : State) : State :=
  match op with
  | .add => s.setReg a (s.reg a + s.reg b)
  | .mul => s.setReg a (s.reg a * s.reg b)
  | .cmp => s.setFlags (compareFlags (s.reg a) (s.reg b))

/-- An ALU instruction: the first operand's check, then the second's, then the operation and `advance(3)` (R98, R145). -/
def aluInstr (op : AluOp) (ra rb : Byte) (s : State) : Result :=
  attempt s do
    let a ← regOperand ra
    let b ← regOperand rb
    (alu op a b s).advance 3

/-- ADD ra, rb (R98). -/
def execAdd (ra rb : Byte) (s : State) : Result := aluInstr .add ra rb s

/-- MUL ra, rb (R100). -/
def execMul (ra rb : Byte) (s : State) : Result := aluInstr .mul ra rb s

/-- CMP ra, rb (R103). -/
def execCmp (ra rb : Byte) (s : State) : Result := aluInstr .cmp ra rb s

end Sys2Proof.Machine
end

