-- ==== Sys2Proof/Machine/Control.lean ====
section
/-! DEFINITION. CALL, RET, JMP, JEQ and JNE (44_control_flow.md). -/

namespace Sys2Proof.Machine

/-- Jump to the address in a register (R120, R125): the target is written to `pc` unchanged. -/
def jumpTo (r : Byte) (s : State) : Except Raise State := do
  let i ← regOperand r
  .ok (s.setPc (s.reg i))

/-- A conditional jump (R127, R130): the register is accessed only when the jump is taken (D16). -/
def branch (taken : Bool) (r : Byte) (s : State) : Except Raise State :=
  if taken then jumpTo r s else s.advance 2

/-- CALL r (R121): push the return address `pc + 2`, then jump; `x[r]` is read after the decrement. The step
executes it at `pc` ≤ 253 only, where `pc + 2` is a byte (log entry 2). -/
def execCall (r : Byte) (s : State) : Result :=
  attempt s do
    let i ← regOperand r
    let pushed ← s.decSp.storeTop (BitVec.ofNat 8 (s.pc.toNat + 2))
    .ok (pushed.setPc (pushed.reg i))

/-- RET (R123): pop the stack top into `pc`. -/
def execRet (s : State) : Result :=
  attempt s do
    let target ← s.loadTop
    .ok (s.setPc target).incSp

/-- JMP r (R125). -/
def execJmp (r : Byte) (s : State) : Result := attempt s (jumpTo r s)

/-- JEQ r (R127): taken when `E = 1`. -/
def execJeq (r : Byte) (s : State) : Result := attempt s (branch s.equal r s)

/-- JNE r (R130): taken when `E = 0`. -/
def execJne (r : Byte) (s : State) : Result := attempt s (branch (!s.equal) r s)

end Sys2Proof.Machine
end

