-- ==== Sys2Proof/Machine/Stack.lean ====
section
/-! DEFINITION. PUSH and POP (43_stack.md). The statements of each effect run left to right, which decides the case of
register 7 as the operand (R112, R115). -/

namespace Sys2Proof.Machine

/-- PUSH r (R111): the address is the decremented `x[7]`, and `x[r]` is read after the decrement. -/
def execPush (r : Byte) (s : State) : Result :=
  attempt s do
    let i ← regOperand r
    let pushed ← s.decSp.storeTop (s.decSp.reg i)
    pushed.advance 2

/-- POP r (R114): `x[7]` is incremented after the write of `x[r]`. -/
def execPop (r : Byte) (s : State) : Result :=
  attempt s do
    let i ← regOperand r
    let v ← s.loadTop
    (s.setReg i v).incSp.advance 2

end Sys2Proof.Machine
end

