-- ==== Sys2Proof/Machine/SystemData.lean ====
section
/-! DEFINITION. HLT, LDI and PRN (41_system_and_data.md). -/

namespace Sys2Proof.Machine

/-- HLT (R86): clear `running` and advance by 1. -/
def execHlt (s : State) : Result := attempt s (s.halt.advance 1)

/-- LDI r, imm (R88): the register check comes before the check of the successor address (R145). -/
def execLdi (r imm : Byte) (s : State) : Result :=
  attempt s do
    let i ← regOperand r
    (s.setReg i (immOperand imm)).advance 3

/-- PRN r (R91): append the register's value to the output channel. -/
def execPrn (r : Byte) (s : State) : Result :=
  attempt s do
    let i ← regOperand r
    (s.output (s.reg i)).advance 2

end Sys2Proof.Machine
end

