-- ==== Sys2Proof/Machine/Fetch.lean ====
section
/-! DEFINITION. Fetch, decode and the frame of the step (40_fetch_decode_dispatch.md R70 to R73). -/

namespace Sys2Proof.Machine

/-- The three fetched bytes (R71), read in this order; a read past 255 raises AddressFault (R72). -/
def fetch (s : State) : Except Raise (Byte × Byte × Byte) := do
  let ir ← s.memRead s.pc.toNat
  let op1 ← s.memRead (s.pc.toNat + 1)
  let op2 ← s.memRead (s.pc.toNat + 2)
  .ok (ir, op1, op2)

/-- Fetch and decode: an opcode byte outside the table raises IllegalOpcode (R73, R141). -/
def fetchInstr (s : State) : Except Raise Instr := do
  let (ir, op1, op2) ← fetch s
  match decode ir op1 op2 with
  | .ok i => .ok i
  | .error _ => .error ⟨.illegalOpcode, ir.toNat⟩

/-- One step (R73) with `run` as the meaning of an instruction. A core that is HALTED or FAULTED does nothing: the step request
answers the same state (R70, R187). -/
def stepWith (run : Instr → State → Result) (s : State) : Result :=
  if s.running then
    match fetchInstr s with
    | .ok i => run i s
    | .error r => .next (s.raise r)
  else .next s

/-- Store three bytes at `pc`, `pc + 1` and `pc + 2`, where the next fetch reads them. An address above 255 does not exist
and its byte is dropped. -/
def State.withFetchBytes (s : State) (bs : Byte × Byte × Byte) : State :=
  let put (m : Memory) (a : Nat) (v : Byte) : Memory := if a < 256 then m.write a v else m
  { s with
    mem := put (put (put s.mem s.pc.toNat bs.1) (s.pc.toNat + 1) bs.2.1) (s.pc.toNat + 2) bs.2.2 }

end Sys2Proof.Machine
end

