-- ==== Sys2Proof/Machine/Step.lean ====
section
/-! DEFINITION. The step of the machine, and placing an instruction where the next step fetches it. -/

namespace Sys2Proof.Machine

/-- One step of the core (R73). -/
def step (s : State) : Host.Outcome State Fault Refusal := stepWith exec s

/-- `s` with the instruction that spec/opcode_table.json writes as `w` in `nbits` bits (zeros after it) stored at `pc`,
where a running core fetches its next instruction (R71, R80; log entry 5). -/
def State.withFetchWord (s : State) (nbits w : Nat) : State := s.withFetchBytes (tableWordFetch nbits w)

end Sys2Proof.Machine
end

