-- ==== Sys2Proof/WellFormed.lean ====
section
/-! DEFINITION. The static checks. Every term of `Instr` is well formed as an encoding, because its operands are bytes
and every operand byte is encodable (30_encoding.md R55, R56): the type makes that check, so none is left to make here
(log entry 8). What can still be checked before a run: that an instruction's register operands name registers that exist
(R55), and that a program image can be loaded (80_host_interface.md R185). -/

namespace Sys2Proof

/-- "Only 0..7 name a register" (R55). -/
def namesRegister (r : Byte) : Bool := r.toNat < 8

/-- Every register operand of the instruction names a register (R55): the instruction cannot raise RegisterFault (R143).
It is no condition for decoding or for running: an instruction that fails it has its effect or its fault as its rule says. -/
def Instr.registersExist : Instr → Bool
  | .hlt => true
  | .ldi r _ => namesRegister r
  | .prn r => namesRegister r
  | .mul ra rb => namesRegister ra && namesRegister rb
  | .add ra rb => namesRegister ra && namesRegister rb
  | .push r => namesRegister r
  | .pop r => namesRegister r
  | .call r => namesRegister r
  | .ret => true
  | .cmp ra rb => namesRegister ra && namesRegister rb
  | .jmp r => namesRegister r
  | .jeq r => namesRegister r
  | .jne r => namesRegister r

/-- An image the host may load: at most 256 values, each one a byte (R185, D15). -/
def imageWellFormed (image : List Nat) : Bool :=
  decide (image.length ≤ 256) && image.all (fun b => decide (b < 256))

end Sys2Proof
end

