-- ==== Sys2Proof/Machine/HostOps.lean ====
section
/-! DEFINITION. What the host does to the core outside a step (80_host_interface.md): reset and load, and how it renders
the output channel. A step request is `step`, a run is `run` (Run.lean), and observation is reading the state (R187, R191). -/

namespace Sys2Proof.Machine

/-- Reset (R165, R188): whatever the state was, the state of `State.resetWith`. -/
def State.hostReset (spReset : Byte) (_s : State) : State := State.resetWith spReset

/-- Place the image bytes one after another from an address up (R185). -/
def Memory.loadFrom (m : Memory) (a : Nat) (image : List Nat) : Memory :=
  match image with
  | [] => m
  | b :: rest => Memory.loadFrom (m.write a (BitVec.ofNat 8 b)) (a + 1) rest

/-- Reset, then load (R166; log entry 10): the state in which a run of the image begins. An image that is too long or holds a value that
is no byte is refused, and the core never starts (R185, D15). -/
def start (spReset : Byte) (image : List Nat) : Option State :=
  if imageWellFormed image then
    some { State.resetWith spReset with mem := Memory.loadFrom [] Config.loadBase image }
  else none

/-- A decimal digit as a character. -/
def digitChar (d : Nat) : Char := Char.ofNat (48 + d)

/-- The unsigned decimal numeral of a byte, without sign or leading zeros (R189). -/
def renderByte (v : Byte) : List Char :=
  let n := v.toNat
  if n < 10 then [digitChar n]
  else if n < 100 then [digitChar (n / 10), digitChar (n % 10)]
  else [digitChar (n / 100), digitChar (n / 10 % 10), digitChar (n % 10)]

/-- The text the host makes of the output channel: each value's numeral followed by a line break, in execution order
(R189). DESIGN CHOICE (log entry 6): the line break is the one character LF. -/
def renderOut (out : List Byte) : List Char := out.flatMap fun v => renderByte v ++ [Char.ofNat 10]

end Sys2Proof.Machine
end

