-- ==== Sys2Proof/Machine/Run.lean ====
section
/-! DEFINITION. A run under a step budget (40_fetch_decode_dispatch.md R78, 70_reset_and_hazards.md R172): the budget is the
model's own device (log entry 11). A stopped core's further step requests do nothing, so a budget past the end changes nothing. -/

namespace Sys2Proof.Machine

/-- `k` steps. -/
def run (k : Nat) (s : State) : Result :=
  match k with
  | 0 => .next s
  | k + 1 =>
    match step s with
    | .next t => run k t
    | .fault r => .fault r
    | .refused r => .refused r

end Sys2Proof.Machine
end

