-- ==== Sys2Proof/Safety.lean ====
section
/-! DEFINITION. The words claims are made in: the control states of the core, the invariants, the faulted state a raise
leaves, and what two states may differ in. -/

namespace Sys2Proof.Machine

/-- RUNNING: the step is enabled (40_fetch_decode_dispatch.md R70). -/
abbrev State.isRunning (s : State) : Prop := s.running = true ∧ s.fault = none

/-- HALTED: the normal end of a run (R70, R79). -/
abbrev State.isHalted (s : State) : Prop := s.running = false ∧ s.fault = none

/-- FAULTED: an abnormal end, never a success (R70, R79). -/
abbrev State.isFaulted (s : State) : Prop := s.running = false ∧ s.fault ≠ none

/-- The state `s` with only what a raise changes, written out (60_exceptions.md R146). -/
abbrev faultedState (s : State) (c : Cause) (info : Nat) : State :=
  { s with running := false, fault := some { cause := c, info := info, fpc := s.pc } }

/-- At most one of the three flags is set: none before the first CMP, exactly one after it (10_state.md R16). -/
abbrev State.flagsExclusive (s : State) : Prop :=
  (s.equal && s.less) = false ∧ (s.equal && s.greater) = false ∧ (s.less && s.greater) = false

/-- The record names a fault that the bytes at `pc` can raise, and the core stands at the faulting instruction
(60_exceptions.md R140 to R143, R146). -/
def FaultRecord.legalIn (f : FaultRecord) (s : State) : Bool :=
  (f.fpc == s.pc) &&
  match f.cause with
  | .illegalOpcode =>
    decide (s.pc.toNat ≤ 253) && (f.info == (s.mem.read s.pc.toNat).toNat) &&
      !opcodeBytes.contains (s.mem.read s.pc.toNat)
  | .addressFault => decide (253 ≤ s.pc.toNat) && (f.info == 256)
  | .registerFault =>
    decide (s.pc.toNat ≤ 253) && decide (7 < f.info) &&
      ((f.info == (s.mem.read (s.pc.toNat + 1)).toNat) || (f.info == (s.mem.read (s.pc.toNat + 2)).toNat))

/-- A set latch means a stopped core (R70: `running = 1` with `fault` set never occurs) and a legal record. -/
abbrev State.latchLegal (s : State) : Prop := ∀ f ∈ s.fault, s.running = false ∧ f.legalIn s = true

/-- The invariant of the machine. -/
abbrev State.Inv (s : State) : Prop := s.mem.wf = true ∧ s.flagsExclusive ∧ s.latchLegal

/-- Two states that agree in everything but the flags `L` and `G` and the output channel's history: what no instruction
reads (10_state.md R16, R21). -/
abbrev sameButUnread (s t : State) : Prop :=
  s.x = t.x ∧ s.pc = t.pc ∧ s.equal = t.equal ∧ s.running = t.running ∧ s.fault = t.fault ∧ s.mem = t.mem

/-- The next state of an answer, if it has one. -/
def nextState (r : Result) : Option State :=
  match r with
  | .next t => some t
  | .fault _ => none
  | .refused _ => none

end Sys2Proof.Machine
end

