-- ==== Sys2Proof/Certificates/Slice0/Obligations.lean ====
section
/-! DEFINITION. The statements for the provers. `k`, `a`, `b` of type `Fin 8` name the register a register operand byte
names (30_encoding.md R55); a byte above 7 names none, and the clauses with `7 < r.toNat` say what happens then. A clause that
writes the next state as `{ s with … }` says that every field it does not list is unchanged. -/

open Sys2Proof Sys2Proof.Machine

/-! ### Encoding -/

/-- 30_encoding.md R50 to R57: a byte list decodes to an instruction and a rest exactly when it is the instruction's encoding
followed by the rest; so no operand bit is dropped, at any operand value, and no instruction has two encodings. -/
def Obligations.DecodeInvertsEncode : Prop :=
  ∀ (bs : List Byte) (i : Instr) (rest : List Byte), decodeBytes bs = .ok (i, rest) ↔ bs = encode i ++ rest

/-- 30_encoding.md R57, R58 and 40_fetch_decode_dispatch.md R73: the 13 opcode bytes, each on all 8 bits; every other byte is
refused by its own value, and 243 of the 256 bytes are refused. -/
def Obligations.OpcodeMapIsClosed : Prop :=
  (∀ op1 op2 : Byte,
    decode 0x01 op1 op2 = .ok .hlt ∧ decode 0x82 op1 op2 = .ok (.ldi op1 op2) ∧
    decode 0x47 op1 op2 = .ok (.prn op1) ∧ decode 0xA2 op1 op2 = .ok (.mul op1 op2) ∧
    decode 0xA0 op1 op2 = .ok (.add op1 op2) ∧ decode 0x45 op1 op2 = .ok (.push op1) ∧
    decode 0x46 op1 op2 = .ok (.pop op1) ∧ decode 0x50 op1 op2 = .ok (.call op1) ∧
    decode 0x11 op1 op2 = .ok .ret ∧ decode 0xA7 op1 op2 = .ok (.cmp op1 op2) ∧
    decode 0x54 op1 op2 = .ok (.jmp op1) ∧ decode 0x55 op1 op2 = .ok (.jeq op1) ∧
    decode 0x56 op1 op2 = .ok (.jne op1)) ∧
  (∀ ir op1 op2 : Byte,
    ir ∉ ([0x01, 0x82, 0x47, 0xA2, 0xA0, 0x45, 0x46, 0x50, 0x11, 0xA7, 0x54, 0x55, 0x56] : List Byte) →
    decode ir op1 op2 = .error (.illegalOpcode ir)) ∧
  ((List.range 256).filter fun n =>
    match decode (BitVec.ofNat 8 n) 0 0 with
    | .ok _ => false
    | .error _ => true).length = 243

/-- 95_test_vectors.md S7 (the source's scenario), V-ADD-1, V-CALL-1, V-JNE-1, V-RET-1, V-POP-1: the words read as glossed. -/
def Obligations.SpecWordsDecode : Prop :=
  decode 0x82 0x00 0x08 = .ok (.ldi 0 8) ∧ decode 0x82 0x01 0x09 = .ok (.ldi 1 9) ∧
  decode 0xA0 0x00 0x01 = .ok (.add 0 1) ∧ decode 0x47 0x00 0x01 = .ok (.prn 0) ∧
  decode 0x01 0x00 0x00 = .ok .hlt ∧ decode 0x50 0x01 0x01 = .ok (.call 1) ∧
  decode 0x56 0x03 0x01 = .ok (.jne 3) ∧ decode 0x11 0xFF 0xFF = .ok .ret ∧
  decode 0x46 0x02 0x00 = .ok (.pop 2)

/-- 30_encoding.md R57, last paragraph, through the host's placing of a table word (log entries 4 and 5, DEDUCED: the numbering
and the placing are the model's reading): what `decodeTableWord` reads from a table word is what the next step runs once it is placed. -/
def Obligations.PlacedTableWordRuns : Prop :=
  ∀ (s : State) (nbits w : Nat) (i : Instr), s.running = true → s.pc.toNat ≤ 253 → s.mem.wf = true →
    decodeTableWord nbits w = some i →
    step (s.withFetchWord nbits w) = exec i (s.withFetchWord nbits w) ∧ (s.withFetchWord nbits w).mem.wf = true

/-! ### The step -/

/-- 40_fetch_decode_dispatch.md R71, R73: when the bytes at `pc` decode to an instruction, the step is that instruction's
execution, and nothing is added around it (R74); the same said of the encoding's bytes, and no byte after them matters. -/
def Obligations.StepRunsDecodedInstruction : Prop :=
  (∀ (s : State) (i : Instr), s.running = true → s.pc.toNat ≤ 253 →
    decode (s.mem.read s.pc.toNat) (s.mem.read (s.pc.toNat + 1)) (s.mem.read (s.pc.toNat + 2)) = .ok i →
    step s = exec i s) ∧
  (∀ (s : State) (i : Instr), s.running = true → s.pc.toNat ≤ 253 →
    (∀ (k : Nat) (h : k < (encode i).length), s.mem.read (s.pc.toNat + k) = (encode i)[k]) →
    step s = exec i s)

/-- R73 with R141: the step of a running core. Where the fetch succeeds, the dispatch is on the fetched opcode byte: all 13 rows,
and the "else" row, which faults with the opcode byte as info and leaves `pc`. Where the fetch meets address 256 it faults. -/
def Obligations.StepDispatchesOnOpcode : Prop :=
  (∀ s : State, s.running = true → 253 < s.pc.toNat → step s = .next (faultedState s .addressFault 256)) ∧
  ∀ s : State, s.running = true → s.pc.toNat ≤ 253 →
    let ir := s.mem.read s.pc.toNat
    let op1 := s.mem.read (s.pc.toNat + 1)
    let op2 := s.mem.read (s.pc.toNat + 2)
    (ir = 0x01 → step s = exec .hlt s) ∧ (ir = 0x82 → step s = exec (.ldi op1 op2) s) ∧
    (ir = 0x47 → step s = exec (.prn op1) s) ∧ (ir = 0xA2 → step s = exec (.mul op1 op2) s) ∧
    (ir = 0xA0 → step s = exec (.add op1 op2) s) ∧ (ir = 0x45 → step s = exec (.push op1) s) ∧
    (ir = 0x46 → step s = exec (.pop op1) s) ∧ (ir = 0x50 → step s = exec (.call op1) s) ∧
    (ir = 0x11 → step s = exec .ret s) ∧ (ir = 0xA7 → step s = exec (.cmp op1 op2) s) ∧
    (ir = 0x54 → step s = exec (.jmp op1) s) ∧ (ir = 0x55 → step s = exec (.jeq op1) s) ∧
    (ir = 0x56 → step s = exec (.jne op1) s) ∧
    (ir ∉ ([0x01, 0x82, 0x47, 0xA2, 0xA0, 0x45, 0x46, 0x50, 0x11, 0xA7, 0x54, 0x55, 0x56] : List Byte) →
      step s = .next (faultedState s .illegalOpcode ir.toNat))

/-- R72: at `pc` 254 or 255 the fetch raises AddressFault(256), whatever the bytes there are. -/
def Obligations.FetchFaultsAtTopOfMemory : Prop :=
  ∀ s : State, s.running = true → 254 ≤ s.pc.toNat → step s = .next (faultedState s .addressFault 256)

/-- 60_exceptions.md R145 with R141, R142, R143: in a running core the first fault that applies is raised, and where none
applies the step commits and the latch keeps what it held. -/
def Obligations.FaultPriority : Prop :=
  ∀ s : State, s.running = true →
    let ir := s.mem.read s.pc.toNat
    let op1 := s.mem.read (s.pc.toNat + 1)
    let op2 := s.mem.read (s.pc.toNat + 2)
    if 254 ≤ s.pc.toNat then step s = .next (faultedState s .addressFault 256)
    else if ir ∉ ([0x01, 0x82, 0x47, 0xA2, 0xA0, 0x45, 0x46, 0x50, 0x11, 0xA7, 0x54, 0x55, 0x56] : List Byte) then
      step s = .next (faultedState s .illegalOpcode ir.toNat)
    else if 7 < op1.toNat ∧ ir ≠ 0x01 ∧ ir ≠ 0x11 ∧ (ir = 0x55 → s.equal = true) ∧ (ir = 0x56 → s.equal = false) then
      step s = .next (faultedState s .registerFault op1.toNat)
    else if 7 < op2.toNat ∧ ir ∈ ([0xA0, 0xA2, 0xA7] : List Byte) then
      step s = .next (faultedState s .registerFault op2.toNat)
    else if s.pc.toNat = 253 ∧ ir ∈ ([0x82, 0xA0, 0xA2, 0xA7] : List Byte) then
      step s = .next (faultedState s .addressFault 256)
    else ∃ t, step s = .next t ∧ t.fault = s.fault

/-- R146, R76: a step that changes the latch changes only the latch and `running`, records `pc`, and was a running core's. -/
def Obligations.FaultsArePrecise : Prop :=
  ∀ s t : State, step s = .next t →
    t.fault = s.fault ∨ (s.running = true ∧ ∃ c info, t = faultedState s c info)

/-- R70, R187 ("A step request while the core is HALTED or FAULTED does nothing"): a stopped core does nothing, for any number
of step requests (the budgeted `run` is the model's device, log entry 11). -/
def Obligations.StoppedCoreDoesNothing : Prop :=
  ∀ (k : Nat) (s : State), s.running = false → step s = .next s ∧ run k s = .next s

/-- 70_reset_and_hazards.md R171, an inference the spec marks as derived: the step is total. No instruction, step or run ends
without a next state. -/
def Obligations.EveryStepAnswers : Prop :=
  (∀ (i : Instr) (s : State), ∃ t, exec i s = .next t) ∧ (∀ s : State, ∃ t, step s = .next t) ∧
  (∀ (k : Nat) (s : State), ∃ t, run k s = .next t)

/-- R70, R79: a running core becomes HALTED by a HLT it can fetch, and by nothing else; HLT's operand bytes do not matter
(41_system_and_data.md R87). -/
def Obligations.HaltedExactlyByHlt : Prop :=
  ∀ s t : State, s.isRunning → step s = .next t →
    (t.isHalted ↔ s.pc.toNat ≤ 253 ∧ s.mem.read s.pc.toNat = 0x01)

/-! ### Reset and load -/

/-- R26, R27, R28: what reset leaves, for every value of `SP_RESET` and whatever the state was. -/
def Obligations.ResetValues : Prop :=
  ∀ (spReset : Byte) (old : State),
    let s := State.hostReset spReset old
    s.pc = 0 ∧ (∀ k : Fin 8, k ≠ 7 → s.reg k = 0) ∧ s.sp = spReset ∧
    s.equal = false ∧ s.less = false ∧ s.greater = false ∧ s.running = true ∧ s.fault = none ∧ s.out = [] ∧
    ∀ a, s.mem.read a = 0

/-- R29: after reset and load, cell `i` is image byte `i`, and every cell past the image is `MEM_FILL` = 0; everything else
is as reset leaves it. That the memory is canonical (`Memory.wf`) is the model's representation (log entry 3, DESIGN CHOICE). -/
def Obligations.LoadPlacesImage : Prop :=
  ∀ (spReset : Byte) (image : List Nat), image.length ≤ 256 → (∀ b ∈ image, b < 256) →
    ∃ m : Memory, start spReset image = some { State.resetWith spReset with mem := m } ∧ m.wf = true ∧
      (∀ (i : Nat) (h : i < image.length), (m.read i).toNat = image[i]) ∧
      (∀ i : Nat, image.length ≤ i → m.read i = 0)

/-- 80_host_interface.md R185, D15: an image is refused exactly when it is longer than 256 bytes or holds a value above 255. -/
def Obligations.BadImageIsRefused : Prop :=
  ∀ (spReset : Byte) (image : List Nat),
    start spReset image = none ↔ (256 < image.length ∨ ∃ b ∈ image, 255 < b)

/-- R167, an inference the spec marks as derived: the empty image ends FAULTED with IllegalOpcode 0x00 at 0. -/
def Obligations.EmptyImageFaults : Prop :=
  ∀ spReset : Byte, ∃ s, start spReset [] = some s ∧ step s = .next (faultedState s .illegalOpcode 0)

/-! ### One statement per instruction -/

/-- R86: the state becomes HALTED (where no fault stands in the latch), and no further step changes it. -/
def Obligations.HltHalts : Prop :=
  encode .hlt = [0x01] ∧
  ∀ s : State, s.pc.toNat ≤ 253 →
    exec .hlt s = .next { s with running := false, pc := BitVec.ofNat 8 (s.pc.toNat + 1) } ∧
    (s.fault = none → ({ s with running := false, pc := BitVec.ofNat 8 (s.pc.toNat + 1) } : State).isHalted) ∧
    step { s with running := false, pc := BitVec.ofNat 8 (s.pc.toNat + 1) } =
      .next { s with running := false, pc := BitVec.ofNat 8 (s.pc.toNat + 1) }

/-- R88: the effect, and the two faults with the register check first. -/
def Obligations.LdiLoadsImmediate : Prop :=
  ∀ (r imm : Byte) (s : State),
    encode (.ldi r imm) = [0x82, r, imm] ∧
    (∀ k : Fin 8, r.toNat = k.val → s.pc.toNat + 3 ≤ 255 →
      exec (.ldi r imm) s = .next { s with x := s.x.set k imm, pc := BitVec.ofNat 8 (s.pc.toNat + 3) }) ∧
    (7 < r.toNat → exec (.ldi r imm) s = .next (faultedState s .registerFault r.toNat)) ∧
    (r.toNat ≤ 7 → 255 < s.pc.toNat + 3 →
      exec (.ldi r imm) s = .next (faultedState s .addressFault (s.pc.toNat + 3)))

/-- R91. -/
def Obligations.PrnAppendsRegister : Prop :=
  ∀ (r : Byte) (s : State),
    encode (.prn r) = [0x47, r] ∧
    (∀ k : Fin 8, r.toNat = k.val → s.pc.toNat ≤ 253 →
      exec (.prn r) s = .next { s with out := s.out ++ [s.reg k], pc := BitVec.ofNat 8 (s.pc.toNat + 2) }) ∧
    (7 < r.toNat → exec (.prn r) s = .next (faultedState s .registerFault r.toNat))

/-- R98, with the sum taken in the integers and reduced modulo 256 (R96). -/
def Obligations.AddWritesSumModulo256 : Prop :=
  ∀ (ra rb : Byte) (s : State),
    encode (.add ra rb) = [0xA0, ra, rb] ∧
    (∀ a b : Fin 8, ra.toNat = a.val → rb.toNat = b.val → s.pc.toNat + 3 ≤ 255 →
      exec (.add ra rb) s = .next { s with
        x := s.x.set a (BitVec.ofNat 8 (((s.reg a).toNat + (s.reg b).toNat) % 256))
        pc := BitVec.ofNat 8 (s.pc.toNat + 3) }) ∧
    (7 < ra.toNat → exec (.add ra rb) s = .next (faultedState s .registerFault ra.toNat)) ∧
    (ra.toNat ≤ 7 → 7 < rb.toNat → exec (.add ra rb) s = .next (faultedState s .registerFault rb.toNat)) ∧
    (ra.toNat ≤ 7 → rb.toNat ≤ 7 → 255 < s.pc.toNat + 3 →
      exec (.add ra rb) s = .next (faultedState s .addressFault (s.pc.toNat + 3)))

/-- R100, with the product taken in the integers and reduced modulo 256 (R96). -/
def Obligations.MulWritesProductModulo256 : Prop :=
  ∀ (ra rb : Byte) (s : State),
    encode (.mul ra rb) = [0xA2, ra, rb] ∧
    (∀ a b : Fin 8, ra.toNat = a.val → rb.toNat = b.val → s.pc.toNat + 3 ≤ 255 →
      exec (.mul ra rb) s = .next { s with
        x := s.x.set a (BitVec.ofNat 8 (((s.reg a).toNat * (s.reg b).toNat) % 256))
        pc := BitVec.ofNat 8 (s.pc.toNat + 3) }) ∧
    (7 < ra.toNat → exec (.mul ra rb) s = .next (faultedState s .registerFault ra.toNat)) ∧
    (ra.toNat ≤ 7 → 7 < rb.toNat → exec (.mul ra rb) s = .next (faultedState s .registerFault rb.toNat)) ∧
    (ra.toNat ≤ 7 → rb.toNat ≤ 7 → 255 < s.pc.toNat + 3 →
      exec (.mul ra rb) s = .next (faultedState s .addressFault (s.pc.toNat + 3)))

/-- R103 (one-hot: the spec's decision D2): each flag is set exactly when its unsigned relation holds, so after CMP exactly
one is set; a CMP that faults leaves the flags. -/
def Obligations.CmpSetsOneFlag : Prop :=
  ∀ (ra rb : Byte) (s : State),
    encode (.cmp ra rb) = [0xA7, ra, rb] ∧
    (∀ a b : Fin 8, ra.toNat = a.val → rb.toNat = b.val → s.pc.toNat + 3 ≤ 255 →
      exec (.cmp ra rb) s = .next { s with
        equal := decide ((s.reg a).toNat = (s.reg b).toNat)
        less := decide ((s.reg a).toNat < (s.reg b).toNat)
        greater := decide ((s.reg b).toNat < (s.reg a).toNat)
        pc := BitVec.ofNat 8 (s.pc.toNat + 3) }) ∧
    (7 < ra.toNat → exec (.cmp ra rb) s = .next (faultedState s .registerFault ra.toNat)) ∧
    (ra.toNat ≤ 7 → 7 < rb.toNat → exec (.cmp ra rb) s = .next (faultedState s .registerFault rb.toNat)) ∧
    (ra.toNat ≤ 7 → rb.toNat ≤ 7 → 255 < s.pc.toNat + 3 →
      exec (.cmp ra rb) s = .next (faultedState s .addressFault (s.pc.toNat + 3)))

/-- R111: the cell at the decremented `x[7]` receives `x[r]`, read after the decrement (so `PUSH R7` stores the decremented
value, R112), and every other cell keeps its byte. The canonical form of memory (`Memory.wf`), assumed and kept, is the
model's representation (log entry 3, DESIGN CHOICE). -/
def Obligations.PushStoresBelowStackTop : Prop :=
  ∀ (r : Byte) (s : State),
    encode (.push r) = [0x45, r] ∧
    (∀ k : Fin 8, r.toNat = k.val → s.pc.toNat ≤ 253 → s.mem.wf = true →
      ∃ m : Memory,
        exec (.push r) s = .next { s with
          x := s.x.set 7 (s.sp - 1), mem := m, pc := BitVec.ofNat 8 (s.pc.toNat + 2) } ∧
        m.wf = true ∧ m.read (s.sp - 1).toNat = (if k = 7 then s.sp - 1 else s.reg k) ∧
        ∀ c : Nat, c ≠ (s.sp - 1).toNat → m.read c = s.mem.read c) ∧
    (7 < r.toNat → exec (.push r) s = .next (faultedState s .registerFault r.toNat))

/-- R114: `x[r]` receives the cell at `x[7]`, then `x[7]` is incremented; with operand 7 the increment is of the byte just
loaded (R115). -/
def Obligations.PopLoadsStackTop : Prop :=
  ∀ (r : Byte) (s : State),
    encode (.pop r) = [0x46, r] ∧
    (∀ k : Fin 8, r.toNat = k.val → s.pc.toNat ≤ 253 →
      exec (.pop r) s = .next { s with
        x := (s.x.set k (s.mem.read s.sp.toNat)).set 7
          (if k = 7 then s.mem.read s.sp.toNat + 1 else s.sp + 1)
        pc := BitVec.ofNat 8 (s.pc.toNat + 2) }) ∧
    (7 < r.toNat → exec (.pop r) s = .next (faultedState s .registerFault r.toNat))

/-- R121: the return address `pc + 2` is pushed and `pc` receives `x[r]`, read after the decrement (R122 for operand 7). The canonical
form of memory (`Memory.wf`), assumed and kept, is the model's representation (log entry 3, DESIGN CHOICE). -/
def Obligations.CallPushesReturnAddress : Prop :=
  ∀ (r : Byte) (s : State),
    encode (.call r) = [0x50, r] ∧
    (∀ k : Fin 8, r.toNat = k.val → s.pc.toNat ≤ 253 → s.mem.wf = true →
      ∃ m : Memory,
        exec (.call r) s = .next { s with
          x := s.x.set 7 (s.sp - 1), mem := m, pc := if k = 7 then s.sp - 1 else s.reg k } ∧
        m.wf = true ∧ (m.read (s.sp - 1).toNat).toNat = s.pc.toNat + 2 ∧
        ∀ c : Nat, c ≠ (s.sp - 1).toNat → m.read c = s.mem.read c) ∧
    (7 < r.toNat → exec (.call r) s = .next (faultedState s .registerFault r.toNat))

/-- R123. -/
def Obligations.RetPopsProgramCounter : Prop :=
  encode .ret = [0x11] ∧
  ∀ s : State, exec .ret s = .next { s with pc := s.mem.read s.sp.toNat, x := s.x.set 7 (s.sp + 1) }

/-- R125. -/
def Obligations.JmpJumpsToRegister : Prop :=
  ∀ (r : Byte) (s : State),
    encode (.jmp r) = [0x54, r] ∧
    (∀ k : Fin 8, r.toNat = k.val → exec (.jmp r) s = .next { s with pc := s.reg k }) ∧
    (7 < r.toNat → exec (.jmp r) s = .next (faultedState s .registerFault r.toNat))

/-- R127: when `E = 0` the register is not accessed, and an operand byte above 7 is no fault. -/
def Obligations.JeqJumpsWhenEqual : Prop :=
  ∀ (r : Byte) (s : State),
    encode (.jeq r) = [0x55, r] ∧
    (s.equal = true → ∀ k : Fin 8, r.toNat = k.val → exec (.jeq r) s = .next { s with pc := s.reg k }) ∧
    (s.equal = false → s.pc.toNat ≤ 253 →
      exec (.jeq r) s = .next { s with pc := BitVec.ofNat 8 (s.pc.toNat + 2) }) ∧
    (s.equal = true → 7 < r.toNat → exec (.jeq r) s = .next (faultedState s .registerFault r.toNat))

/-- R130: when `E = 1` the register is not accessed, and an operand byte above 7 is no fault. -/
def Obligations.JneJumpsWhenNotEqual : Prop :=
  ∀ (r : Byte) (s : State),
    encode (.jne r) = [0x56, r] ∧
    (s.equal = false → ∀ k : Fin 8, r.toNat = k.val → exec (.jne r) s = .next { s with pc := s.reg k }) ∧
    (s.equal = true → s.pc.toNat ≤ 253 →
      exec (.jne r) s = .next { s with pc := BitVec.ofNat 8 (s.pc.toNat + 2) }) ∧
    (s.equal = false → 7 < r.toNat → exec (.jne r) s = .next (faultedState s .registerFault r.toNat))

/-! ### Frames, over all instructions -/

/-- 10_state.md R12, the column "Registers written": a register whose value an instruction changes is one its row lists. -/
def Obligations.OnlyListedRegistersChange : Prop :=
  ∀ (i : Instr) (s t : State) (k : Fin 8), exec i s = .next t → t.reg k ≠ s.reg k →
    match i with
    | .hlt => False
    | .ldi r _ => r.toNat = k.val
    | .prn _ => False
    | .mul ra _ => ra.toNat = k.val
    | .add ra _ => ra.toNat = k.val
    | .push _ => k = 7
    | .pop r => r.toNat = k.val ∨ k = 7
    | .call _ => k = 7
    | .ret => k = 7
    | .cmp _ _ => False
    | .jmp _ => False
    | .jeq _ => False
    | .jne _ => False

/-- R12, the column "Registers read": giving another value to a register that an instruction's row does not list as read gives
the same next state, up to that register's own value where the instruction does not write it. -/
def Obligations.OnlyListedRegistersAreRead : Prop :=
  ∀ (i : Instr) (s t : State) (k : Fin 8) (v : Byte),
    (match i with
     | .hlt => True
     | .ldi _ _ => True
     | .prn r => r.toNat ≠ k.val
     | .mul ra rb => ra.toNat ≠ k.val ∧ rb.toNat ≠ k.val
     | .add ra rb => ra.toNat ≠ k.val ∧ rb.toNat ≠ k.val
     | .push r => k ≠ 7 ∧ r.toNat ≠ k.val
     | .pop _ => k ≠ 7
     | .call r => k ≠ 7 ∧ r.toNat ≠ k.val
     | .ret => k ≠ 7
     | .cmp ra rb => ra.toNat ≠ k.val ∧ rb.toNat ≠ k.val
     | .jmp r => r.toNat ≠ k.val
     | .jeq r => s.equal = true → r.toNat ≠ k.val
     | .jne r => s.equal = false → r.toNat ≠ k.val) →
    exec i s = .next t →
    exec i { s with x := s.x.set k v } = .next t ∨
    exec i { s with x := s.x.set k v } = .next { t with x := t.x.set k v }

/-- R16: no instruction but CMP changes a flag, and a step that changes one fetched the opcode of CMP. -/
def Obligations.OnlyCmpChangesFlags : Prop :=
  (∀ (i : Instr) (s t : State), exec i s = .next t → (∀ ra rb, i ≠ .cmp ra rb) →
    t.equal = s.equal ∧ t.less = s.less ∧ t.greater = s.greater) ∧
  (∀ s t : State, step s = .next t → s.mem.read s.pc.toNat ≠ 0xA7 →
    t.equal = s.equal ∧ t.less = s.less ∧ t.greater = s.greater)

/-- 20_memory.md R32: PUSH and CALL store one byte at the decremented `x[7]`, and no instruction changes any other cell; the
forms that store nothing change no cell at all. -/
def Obligations.OnlyPushAndCallStore : Prop :=
  ∀ (i : Instr) (s t : State), exec i s = .next t →
    match i with
    | .push _ => ∀ c : Nat, c ≠ s.decSp.sp.toNat → t.mem.read c = s.mem.read c
    | .call _ => ∀ c : Nat, c ≠ s.decSp.sp.toNat → t.mem.read c = s.mem.read c
    | .hlt => t.mem = s.mem
    | .ldi _ _ => t.mem = s.mem
    | .prn _ => t.mem = s.mem
    | .mul _ _ => t.mem = s.mem
    | .add _ _ => t.mem = s.mem
    | .pop _ => t.mem = s.mem
    | .ret => t.mem = s.mem
    | .cmp _ _ => t.mem = s.mem
    | .jmp _ => t.mem = s.mem
    | .jeq _ => t.mem = s.mem
    | .jne _ => t.mem = s.mem

/-- 10_state.md R21, 80_host_interface.md R189: the output channel is unchanged but by a PRN that does not fault, which appends
its register's value. -/
def Obligations.OnlyPrnOutputs : Prop :=
  ∀ (i : Instr) (s t : State), exec i s = .next t →
    t.out = s.out ∨ ∃ (r : Byte) (k : Fin 8), i = .prn r ∧ r.toNat = k.val ∧ t.out = s.out ++ [s.reg k]

/-- R189: over any run the channel only grows, at its end. -/
def Obligations.OutputIsAppendOnly : Prop :=
  ∀ (k : Nat) (s t : State), run k s = .next t → ∃ d, t.out = s.out ++ d

/-- 10_state.md R17, R18: `running` and the latch are unchanged but by HLT, which clears `running` alone of the two, and by a
fault, which changes nothing else. -/
def Obligations.OnlyHltAndFaultsStop : Prop :=
  ∀ (i : Instr) (s t : State), exec i s = .next t →
    (t.running = s.running ∧ t.fault = s.fault) ∨
    (i = .hlt ∧ t.running = false ∧ t.fault = s.fault) ∨
    (∃ c info, t = faultedState s c info)

/-- 10_state.md R14: the new `pc` of every instruction that does not fault. -/
def Obligations.NextProgramCounter : Prop :=
  ∀ (i : Instr) (s t : State), s.pc.toNat ≤ 253 → exec i s = .next t →
    (∃ c info, t = faultedState s c info) ∨
    (t.fault = s.fault ∧
      match i with
      | .hlt => t.pc.toNat = s.pc.toNat + 1
      | .prn _ => t.pc.toNat = s.pc.toNat + 2
      | .push _ => t.pc.toNat = s.pc.toNat + 2
      | .pop _ => t.pc.toNat = s.pc.toNat + 2
      | .ldi _ _ => t.pc.toNat = s.pc.toNat + 3
      | .add _ _ => t.pc.toNat = s.pc.toNat + 3
      | .mul _ _ => t.pc.toNat = s.pc.toNat + 3
      | .cmp _ _ => t.pc.toNat = s.pc.toNat + 3
      | .call r => ∃ k : Fin 8, r.toNat = k.val ∧ t.pc = s.decSp.reg k
      | .ret => t.pc = s.mem.read s.sp.toNat
      | .jmp r => ∃ k : Fin 8, r.toNat = k.val ∧ t.pc = s.reg k
      | .jeq r =>
        if s.equal = true then ∃ k : Fin 8, r.toNat = k.val ∧ t.pc = s.reg k else t.pc.toNat = s.pc.toNat + 2
      | .jne r =>
        if s.equal = false then ∃ k : Fin 8, r.toNat = k.val ∧ t.pc = s.reg k else t.pc.toNat = s.pc.toNat + 2)

/-! ### Pairs of instructions -/

/-- 43_stack.md R116, an inference the spec marks as derived from the source's property: PUSH then POP restores the value and
leaves `sp`, and the pushed cell keeps the value. -/
def Obligations.PushThenPopRestores : Prop :=
  ∀ (s : State) (j k : Fin 8), j ≠ 7 → k ≠ 7 → s.running = true → s.mem.wf = true → s.pc.toNat ≤ 251 →
    s.mem.read s.pc.toNat = 0x45 → (s.mem.read (s.pc.toNat + 1)).toNat = j.val →
    s.mem.read (s.pc.toNat + 2) = 0x46 → (s.mem.read (s.pc.toNat + 3)).toNat = k.val →
    (s.sp - 1).toNat ≠ s.pc.toNat + 2 → (s.sp - 1).toNat ≠ s.pc.toNat + 3 →
    ∃ t, run 2 s = .next t ∧ t.x = s.x.set k (s.reg j) ∧
      t.pc.toNat = s.pc.toNat + 4 ∧ t.mem.read (s.sp - 1).toNat = s.reg j

/-- 44_control_flow.md R132, an inference the spec marks as derived from the source's property: after a CALL, a RET executed in
any state that has the stack pointer of the subroutine's entry and still holds the return address returns to the byte after
the CALL, and `x[7]` has its value from before the CALL. -/
def Obligations.RetReturnsAfterCall : Prop :=
  ∀ (s : State) (k : Fin 8), s.running = true → s.mem.wf = true → s.pc.toNat ≤ 253 →
    s.mem.read s.pc.toNat = 0x50 → (s.mem.read (s.pc.toNat + 1)).toNat = k.val →
    ∃ t, step s = .next t ∧
      ∀ u : State, u.running = true → u.pc.toNat ≤ 253 → u.mem.read u.pc.toNat = 0x11 →
        u.sp = t.sp → u.mem.read u.sp.toNat = t.mem.read t.sp.toNat →
        ∃ v, step u = .next v ∧ v.pc.toNat = s.pc.toNat + 2 ∧ v.sp = s.sp

/-- 42_alu.md R103 with R127 and R130 (95_test_vectors.md S8): after a CMP, JEQ jumps exactly when the operands were equal,
and JNE exactly when they were not. -/
def Obligations.BranchFollowsComparison : Prop :=
  ∀ (s : State) (ra rb r : Byte) (a b k : Fin 8), ra.toNat = a.val → rb.toNat = b.val → r.toNat = k.val →
    s.pc.toNat ≤ 250 →
    ∃ t, exec (.cmp ra rb) s = .next t ∧
      (s.reg a = s.reg b →
        exec (.jeq r) t = .next { t with pc := s.reg k } ∧
        exec (.jne r) t = .next { t with pc := BitVec.ofNat 8 (s.pc.toNat + 5) }) ∧
      (s.reg a ≠ s.reg b →
        exec (.jne r) t = .next { t with pc := s.reg k } ∧
        exec (.jeq r) t = .next { t with pc := BitVec.ofNat 8 (s.pc.toNat + 5) })

/-- 41_system_and_data.md R89 (95_test_vectors.md S4): LDI r, v and then PRN r, run from memory, output v. -/
def Obligations.LoadThenPrintOutputs : Prop :=
  ∀ (s : State) (k : Fin 8), s.running = true → s.pc.toNat ≤ 250 →
    s.mem.read s.pc.toNat = 0x82 → (s.mem.read (s.pc.toNat + 1)).toNat = k.val →
    s.mem.read (s.pc.toNat + 3) = 0x47 → (s.mem.read (s.pc.toNat + 4)).toNat = k.val →
    ∃ t, run 2 s = .next t ∧ t.out = s.out ++ [s.mem.read (s.pc.toNat + 2)]

/-- 20_memory.md R40, an inference the spec marks as derived: a PUSH that overwrites the opcode byte of the next instruction
changes what is fetched next. -/
def Obligations.StoreIsSeenByNextFetch : Prop :=
  ∀ (s : State) (k : Fin 8), s.running = true → s.mem.wf = true → s.pc.toNat ≤ 251 →
    s.mem.read s.pc.toNat = 0x45 → (s.mem.read (s.pc.toNat + 1)).toNat = k.val →
    (s.sp - 1).toNat = s.pc.toNat + 2 →
    ∃ t, step s = .next t ∧ t.pc.toNat = s.pc.toNat + 2 ∧
      fetch t = .ok (if k = 7 then s.sp - 1 else s.reg k,
        s.mem.read (s.pc.toNat + 3), s.mem.read (s.pc.toNat + 4))

/-! ### Invariants and isolation -/

/-- Every step keeps the invariant: memory canonical (log entry 3), at most one flag set (R16), and a set latch means a stopped
core whose record names a fault that the bytes at `pc` raise (R70, R140 to R146). -/
def Obligations.StepKeepsInvariant : Prop :=
  ∀ s t : State, s.Inv → step s = .next t → t.Inv

/-- The invariant holds at reset, for every `SP_RESET`. -/
def Obligations.ResetMeetsInvariant : Prop :=
  State.reset.Inv ∧ ∀ spReset : Byte, (State.resetWith spReset).Inv

/-- The invariant holds after every load. -/
def Obligations.LoadMeetsInvariant : Prop :=
  ∀ (spReset : Byte) (image : List Nat) (s : State), start spReset image = some s → s.Inv

/-- R16 ("`L` and `G` are … read by no instruction", which the spec marks as derived) and R21 (the core "never reads" `out`):
over any run, two states that differ only there stay equal in everything else and output the same bytes. -/
def Obligations.UnreadStateIsInvisible : Prop :=
  ∀ (k : Nat) (s s' t t' : State), sameButUnread s s' →
    run k s = .next t → run k s' = .next t' →
    sameButUnread t t' ∧ ∃ d, t.out = s.out ++ d ∧ t'.out = s'.out ++ d

/-- The canonical form of memory (log entry 3, the model's choice): two canonical memories that read alike everywhere are the same data. -/
def Obligations.EqualReadsEqualMemories : Prop :=
  ∀ m m' : Memory, m.wf = true → m'.wf = true → (∀ a, m.read a = m'.read a) → m = m'

/-- R189: the numeral the host prints for a byte denotes it, is made of decimal digits, and has no leading zero. -/
def Obligations.NumeralDenotesByte : Prop :=
  ∀ v : Byte,
    (renderByte v).foldl (fun n c => 10 * n + (c.toNat - 48)) 0 = v.toNat ∧
    (∀ c ∈ renderByte v, 48 ≤ c.toNat ∧ c.toNat ≤ 57) ∧
    ((renderByte v).head? = some (Char.ofNat 48) → v = 0) ∧ 1 ≤ (renderByte v).length
end

