-- ==== Sys2Proof/Laws/Decode.lean ====
section
/-! SUPPORT. What the decoder can answer. -/

namespace Sys2Proof

/-- If the decoder answers an instruction, the first byte is its opcode and the bytes after it are its operand bytes. -/
theorem decode_ok {ir op1 op2 : Byte} {i : Instr} (h : decode ir op1 op2 = .ok i) :
    ir = i.opcode ∧ [op1, op2].take (i.length - 1) = i.operandBytes := by
  unfold decode at h
  split at h <;> simp at h <;> subst h <;> exact ⟨rfl, rfl⟩

/-- If the decoder refuses, it names the opcode byte, which is none of the 13. -/
theorem decode_error {ir op1 op2 : Byte} {e : DecodeError} (h : decode ir op1 op2 = .error e) :
    e = .illegalOpcode ir ∧ ir ∉ opcodeBytes := by
  unfold decode at h
  split at h <;> simp at h
  subst h
  exact ⟨rfl, by simp_all [opcodeBytes]⟩

/-- One and three bytes bound an instruction's length (30_encoding.md R50). -/
theorem length_bounds (i : Instr) : 1 ≤ i.length ∧ i.length ≤ 3 := by
  cases i <;> simp [Instr.length, Instr.format, Format.operandCount]

/-- The two top bits of an opcode are its number of operand bytes (the regularity of R60). -/
theorem opcode_operandCount (i : Instr) : i.opcode.toNat / 64 + 1 = i.length := by
  cases i <;> simp [Instr.opcode, Instr.length, Instr.format, Format.operandCount]

theorem opcode_mem (i : Instr) : i.opcode ∈ opcodeBytes := by
  cases i <;> simp [Instr.opcode, opcodeBytes]

end Sys2Proof
end

