-- ==== Sys2Proof/Laws/State.lean ====
section
/-! SUPPORT. One lemma per field per update of the state. -/

namespace Sys2Proof.Machine

variable (s : State)

@[simp] theorem State.setReg_x (i : Fin 8) (v : Byte) : (s.setReg i v).x = s.x.set i v := rfl
@[simp] theorem State.setReg_pc (i : Fin 8) (v : Byte) : (s.setReg i v).pc = s.pc := rfl
@[simp] theorem State.setReg_equal (i : Fin 8) (v : Byte) : (s.setReg i v).equal = s.equal := rfl
@[simp] theorem State.setReg_less (i : Fin 8) (v : Byte) : (s.setReg i v).less = s.less := rfl
@[simp] theorem State.setReg_greater (i : Fin 8) (v : Byte) : (s.setReg i v).greater = s.greater := rfl
@[simp] theorem State.setReg_running (i : Fin 8) (v : Byte) : (s.setReg i v).running = s.running := rfl
@[simp] theorem State.setReg_fault (i : Fin 8) (v : Byte) : (s.setReg i v).fault = s.fault := rfl
@[simp] theorem State.setReg_mem (i : Fin 8) (v : Byte) : (s.setReg i v).mem = s.mem := rfl
@[simp] theorem State.setReg_out (i : Fin 8) (v : Byte) : (s.setReg i v).out = s.out := rfl

@[simp] theorem State.setPc_x (target : Byte) : (s.setPc target).x = s.x := rfl
@[simp] theorem State.setPc_pc (target : Byte) : (s.setPc target).pc = target := rfl
@[simp] theorem State.setPc_equal (target : Byte) : (s.setPc target).equal = s.equal := rfl
@[simp] theorem State.setPc_less (target : Byte) : (s.setPc target).less = s.less := rfl
@[simp] theorem State.setPc_greater (target : Byte) : (s.setPc target).greater = s.greater := rfl
@[simp] theorem State.setPc_running (target : Byte) : (s.setPc target).running = s.running := rfl
@[simp] theorem State.setPc_fault (target : Byte) : (s.setPc target).fault = s.fault := rfl
@[simp] theorem State.setPc_mem (target : Byte) : (s.setPc target).mem = s.mem := rfl
@[simp] theorem State.setPc_out (target : Byte) : (s.setPc target).out = s.out := rfl

@[simp] theorem State.setFlags_x (f : Flags) : (s.setFlags f).x = s.x := rfl
@[simp] theorem State.setFlags_pc (f : Flags) : (s.setFlags f).pc = s.pc := rfl
@[simp] theorem State.setFlags_equal (f : Flags) : (s.setFlags f).equal = f.equal := rfl
@[simp] theorem State.setFlags_less (f : Flags) : (s.setFlags f).less = f.less := rfl
@[simp] theorem State.setFlags_greater (f : Flags) : (s.setFlags f).greater = f.greater := rfl
@[simp] theorem State.setFlags_running (f : Flags) : (s.setFlags f).running = s.running := rfl
@[simp] theorem State.setFlags_fault (f : Flags) : (s.setFlags f).fault = s.fault := rfl
@[simp] theorem State.setFlags_mem (f : Flags) : (s.setFlags f).mem = s.mem := rfl
@[simp] theorem State.setFlags_out (f : Flags) : (s.setFlags f).out = s.out := rfl

@[simp] theorem State.halt_x : (s.halt).x = s.x := rfl
@[simp] theorem State.halt_pc : (s.halt).pc = s.pc := rfl
@[simp] theorem State.halt_equal : (s.halt).equal = s.equal := rfl
@[simp] theorem State.halt_less : (s.halt).less = s.less := rfl
@[simp] theorem State.halt_greater : (s.halt).greater = s.greater := rfl
@[simp] theorem State.halt_running : (s.halt).running = false := rfl
@[simp] theorem State.halt_fault : (s.halt).fault = s.fault := rfl
@[simp] theorem State.halt_mem : (s.halt).mem = s.mem := rfl
@[simp] theorem State.halt_out : (s.halt).out = s.out := rfl

@[simp] theorem State.output_x (v : Byte) : (s.output v).x = s.x := rfl
@[simp] theorem State.output_pc (v : Byte) : (s.output v).pc = s.pc := rfl
@[simp] theorem State.output_equal (v : Byte) : (s.output v).equal = s.equal := rfl
@[simp] theorem State.output_less (v : Byte) : (s.output v).less = s.less := rfl
@[simp] theorem State.output_greater (v : Byte) : (s.output v).greater = s.greater := rfl
@[simp] theorem State.output_running (v : Byte) : (s.output v).running = s.running := rfl
@[simp] theorem State.output_fault (v : Byte) : (s.output v).fault = s.fault := rfl
@[simp] theorem State.output_mem (v : Byte) : (s.output v).mem = s.mem := rfl
@[simp] theorem State.output_out (v : Byte) : (s.output v).out = s.out ++ [v] := rfl

@[simp] theorem State.raise_x (r : Raise) : (s.raise r).x = s.x := rfl
@[simp] theorem State.raise_pc (r : Raise) : (s.raise r).pc = s.pc := rfl
@[simp] theorem State.raise_equal (r : Raise) : (s.raise r).equal = s.equal := rfl
@[simp] theorem State.raise_less (r : Raise) : (s.raise r).less = s.less := rfl
@[simp] theorem State.raise_greater (r : Raise) : (s.raise r).greater = s.greater := rfl
@[simp] theorem State.raise_running (r : Raise) : (s.raise r).running = false := rfl
@[simp] theorem State.raise_fault (r : Raise) : (s.raise r).fault = some { cause := r.cause, info := r.info, fpc := s.pc } := rfl
@[simp] theorem State.raise_mem (r : Raise) : (s.raise r).mem = s.mem := rfl
@[simp] theorem State.raise_out (r : Raise) : (s.raise r).out = s.out := rfl

@[simp] theorem State.decSp_x : s.decSp.x = s.x.set 7 (s.sp - 1) := rfl
@[simp] theorem State.decSp_pc : s.decSp.pc = s.pc := rfl
@[simp] theorem State.decSp_equal : s.decSp.equal = s.equal := rfl
@[simp] theorem State.decSp_less : s.decSp.less = s.less := rfl
@[simp] theorem State.decSp_greater : s.decSp.greater = s.greater := rfl
@[simp] theorem State.decSp_running : s.decSp.running = s.running := rfl
@[simp] theorem State.decSp_fault : s.decSp.fault = s.fault := rfl
@[simp] theorem State.decSp_mem : s.decSp.mem = s.mem := rfl
@[simp] theorem State.decSp_out : s.decSp.out = s.out := rfl

@[simp] theorem State.incSp_x : s.incSp.x = s.x.set 7 (s.sp + 1) := rfl
@[simp] theorem State.incSp_pc : s.incSp.pc = s.pc := rfl
@[simp] theorem State.incSp_equal : s.incSp.equal = s.equal := rfl
@[simp] theorem State.incSp_less : s.incSp.less = s.less := rfl
@[simp] theorem State.incSp_greater : s.incSp.greater = s.greater := rfl
@[simp] theorem State.incSp_running : s.incSp.running = s.running := rfl
@[simp] theorem State.incSp_fault : s.incSp.fault = s.fault := rfl
@[simp] theorem State.incSp_mem : s.incSp.mem = s.mem := rfl
@[simp] theorem State.incSp_out : s.incSp.out = s.out := rfl

/-! ### Reading a register after an update -/

theorem State.reg_eq (i : Fin 8) : s.reg i = s.x[i] := rfl

theorem State.sp_eq : s.sp = s.x[Config.spReg] := rfl

@[simp] theorem State.reg_setReg_same (i : Fin 8) (v : Byte) : (s.setReg i v).reg i = v := by
  simp [State.reg, State.setReg]

theorem State.reg_setReg_ne (i j : Fin 8) (v : Byte) (h : j ≠ i) : (s.setReg i v).reg j = s.reg j := by
  have hv : i.val ≠ j.val := fun e => h (Fin.ext e.symm)
  simp [State.reg, State.setReg, Vector.getElem_set_ne, hv]

@[simp] theorem State.reg_setPc (i : Fin 8) (p : Byte) : (s.setPc p).reg i = s.reg i := rfl
@[simp] theorem State.reg_setFlags (i : Fin 8) (f : Flags) : (s.setFlags f).reg i = s.reg i := rfl
@[simp] theorem State.reg_halt (i : Fin 8) : s.halt.reg i = s.reg i := rfl
@[simp] theorem State.reg_output (i : Fin 8) (v : Byte) : (s.output v).reg i = s.reg i := rfl
@[simp] theorem State.reg_raise (i : Fin 8) (r : Raise) : (s.raise r).reg i = s.reg i := rfl

theorem State.reg_decSp (i : Fin 8) : s.decSp.reg i = if i = 7 then s.sp - 1 else s.reg i := by
  split
  · rename_i h
    subst h
    exact State.reg_setReg_same s 7 _
  · rename_i h
    exact State.reg_setReg_ne s 7 i _ h

theorem State.reg_incSp (i : Fin 8) : s.incSp.reg i = if i = 7 then s.sp + 1 else s.reg i := by
  split
  · rename_i h
    subst h
    exact State.reg_setReg_same s 7 _
  · rename_i h
    exact State.reg_setReg_ne s 7 i _ h

@[simp] theorem State.sp_decSp : s.decSp.sp = s.sp - 1 := by simp [State.decSp, State.sp]
@[simp] theorem State.sp_incSp : s.incSp.sp = s.sp + 1 := by simp [State.incSp, State.sp]

end Sys2Proof.Machine
end

