-- ==== Sys2Proof/Laws/Ops.lean ====
section
/-! SUPPORT. One lemma per shared operation, saying all it can do. -/

namespace Sys2Proof.Machine

variable (s : State)

/-! ### Except -/

@[simp] theorem except_ok_bind {α β ε : Type} (a : α) (f : α → Except ε β) : (Except.ok a >>= f) = f a := rfl
@[simp] theorem except_error_bind {α β ε : Type} (e : ε) (f : α → Except ε β) :
    (Except.error e >>= f) = Except.error e := rfl

/-! ### Raising -/

@[simp] theorem attempt_ok (t : State) : attempt s (.ok t) = .next t := rfl
@[simp] theorem attempt_error (r : Raise) : attempt s (.error r) = .next (s.raise r) := rfl

/-- An instruction's body always ends in a next state: the committed one, or the state with the fault entered. -/
theorem attempt_cases (body : Except Raise State) :
    (∃ t, body = .ok t ∧ attempt s body = .next t) ∨
    (∃ r, body = .error r ∧ attempt s body = .next (s.raise r)) := by
  cases body with
  | ok t => exact .inl ⟨t, rfl, rfl⟩
  | error r => exact .inr ⟨r, rfl, rfl⟩

/-! ### Memory access -/

theorem memRead_inRange {a : Nat} (h : a ≤ 255) : s.memRead a = .ok (s.mem.read a) := by
  simp [State.memRead, Nat.not_lt.2 h]

theorem memRead_outOfRange {a : Nat} (h : 255 < a) : s.memRead a = .error ⟨.addressFault, a⟩ := by
  simp [State.memRead, h]

theorem memWrite_inRange {a : Nat} (h : a ≤ 255) (v : Byte) :
    s.memWrite a v = .ok { s with mem := s.mem.write a v } := by
  simp [State.memWrite, Nat.not_lt.2 h]

/-- A data address is a byte, so a stack access never raises (20_memory.md R36). -/
@[simp] theorem loadTop_eq : s.loadTop = .ok (s.mem.read s.sp.toNat) :=
  memRead_inRange s (by have := s.sp.isLt; omega)

@[simp] theorem storeTop_eq (v : Byte) : s.storeTop v = .ok { s with mem := s.mem.write s.sp.toNat v } :=
  memWrite_inRange s (by have := s.sp.isLt; omega) v

/-! ### Operands and the program counter -/

theorem regOperand_ok {r : Byte} {i : Fin 8} (h : r.toNat = i.val) : regOperand r = .ok i := by
  have hlt : r.toNat < 8 := by omega
  simp only [regOperand, hlt, dite_true]
  exact congrArg _ (Fin.ext h)

theorem regOperand_error {r : Byte} (h : 7 < r.toNat) : regOperand r = .error ⟨.registerFault, r.toNat⟩ := by
  simp [regOperand, show ¬ r.toNat < 8 by omega]

/-- A register operand byte names a register, or raises RegisterFault with the byte as info. -/
theorem regOperand_cases (r : Byte) :
    (∃ i : Fin 8, r.toNat = i.val ∧ regOperand r = .ok i) ∨
    (7 < r.toNat ∧ regOperand r = .error ⟨.registerFault, r.toNat⟩) := by
  by_cases h : r.toNat < 8
  · exact .inl ⟨⟨r.toNat, h⟩, rfl, regOperand_ok rfl⟩
  · exact .inr ⟨by omega, regOperand_error (by omega)⟩

theorem advance_ok {L : Nat} (h : s.pc.toNat + L ≤ 255) :
    s.advance L = .ok (s.setPc (BitVec.ofNat 8 (s.pc.toNat + L))) := by
  simp [State.advance, Nat.not_lt.2 h]

theorem advance_error {L : Nat} (h : 255 < s.pc.toNat + L) :
    s.advance L = .error ⟨.addressFault, s.pc.toNat + L⟩ := by
  simp [State.advance, h]

/-- `advance(L)` moves `pc` on by `L`, or raises AddressFault with the successor that does not fit. -/
theorem advance_cases (L : Nat) :
    (s.pc.toNat + L ≤ 255 ∧ s.advance L = .ok (s.setPc (BitVec.ofNat 8 (s.pc.toNat + L)))) ∨
    (255 < s.pc.toNat + L ∧ s.advance L = .error ⟨.addressFault, s.pc.toNat + L⟩) := by
  by_cases h : s.pc.toNat + L ≤ 255
  · exact .inl ⟨h, advance_ok s h⟩
  · exact .inr ⟨by omega, advance_error s (by omega)⟩

/-! ### The comparison -/

theorem compareFlags_cases (a b : Byte) :
    (a = b ∧ compareFlags a b = ⟨true, false, false⟩) ∨
    (a.toNat < b.toNat ∧ compareFlags a b = ⟨false, true, false⟩) ∨
    (b.toNat < a.toNat ∧ compareFlags a b = ⟨false, false, true⟩) := by
  by_cases h : a = b
  · exact .inl ⟨h, by simp [compareFlags, h]⟩
  · have hn : a.toNat ≠ b.toNat := fun e => h (BitVec.eq_of_toNat_eq e)
    by_cases hl : a.toNat < b.toNat
    · exact .inr (.inl ⟨hl, by simp [compareFlags, h, hl]⟩)
    · exact .inr (.inr ⟨by omega, by simp [compareFlags, h, hl]⟩)

/-! ### Fetch -/

/-- The fetch reads the three cells from `pc` up, or raises AddressFault(256) (40_fetch_decode_dispatch.md R71, R72). -/
theorem fetch_cases :
    (s.pc.toNat ≤ 253 ∧ fetch s =
      .ok (s.mem.read s.pc.toNat, s.mem.read (s.pc.toNat + 1), s.mem.read (s.pc.toNat + 2))) ∨
    (254 ≤ s.pc.toNat ∧ fetch s = .error ⟨.addressFault, 256⟩) := by
  have hpc := s.pc.isLt
  by_cases h : s.pc.toNat ≤ 253
  · left
    refine ⟨h, ?_⟩
    simp only [fetch, memRead_inRange s (show s.pc.toNat ≤ 255 by omega),
      memRead_inRange s (show s.pc.toNat + 1 ≤ 255 by omega),
      memRead_inRange s (show s.pc.toNat + 2 ≤ 255 by omega), except_ok_bind]
  · right
    refine ⟨by omega, ?_⟩
    by_cases h4 : s.pc.toNat = 254
    · simp only [fetch, h4, memRead_inRange s (show 254 ≤ 255 by omega),
        memRead_inRange s (show 254 + 1 ≤ 255 by omega),
        memRead_outOfRange s (show 255 < 254 + 2 by omega), except_ok_bind, except_error_bind]
    · have h5 : s.pc.toNat = 255 := by omega
      simp only [fetch, h5, memRead_inRange s (show 255 ≤ 255 by omega),
        memRead_outOfRange s (show 255 < 255 + 1 by omega), except_ok_bind, except_error_bind]

/-- Fetch and decode: AddressFault(256) at 254 or 255, else IllegalOpcode with the opcode byte, else the instruction that the
three cells decode to (R72, R73, R141). -/
theorem fetchInstr_cases :
    (254 ≤ s.pc.toNat ∧ fetchInstr s = .error ⟨.addressFault, 256⟩) ∨
    (s.pc.toNat ≤ 253 ∧ s.mem.read s.pc.toNat ∉ opcodeBytes ∧
      fetchInstr s = .error ⟨.illegalOpcode, (s.mem.read s.pc.toNat).toNat⟩) ∨
    (s.pc.toNat ≤ 253 ∧ ∃ i, fetchInstr s = .ok i ∧
      decode (s.mem.read s.pc.toNat) (s.mem.read (s.pc.toNat + 1)) (s.mem.read (s.pc.toNat + 2)) = .ok i) := by
  rcases fetch_cases s with ⟨hp, hf⟩ | ⟨hp, hf⟩
  · right
    cases hd : decode (s.mem.read s.pc.toNat) (s.mem.read (s.pc.toNat + 1)) (s.mem.read (s.pc.toNat + 2)) with
    | error e => exact .inl ⟨hp, (decode_error hd).2, by simp only [fetchInstr, hf, except_ok_bind, hd]⟩
    | ok i => exact .inr ⟨hp, i, by simp only [fetchInstr, hf, except_ok_bind, hd], rfl⟩
  · exact .inl ⟨hp, by simp only [fetchInstr, hf, except_error_bind]⟩

/-! ### Shared instruction bodies -/

/-- A jump writes the register's value to `pc`, or raises RegisterFault (R120, R143). -/
theorem jumpTo_cases (r : Byte) :
    (∃ i : Fin 8, r.toNat = i.val ∧ jumpTo r s = .ok (s.setPc (s.reg i))) ∨
    (7 < r.toNat ∧ jumpTo r s = .error ⟨.registerFault, r.toNat⟩) := by
  rcases regOperand_cases r with ⟨i, hi, he⟩ | ⟨hr, he⟩
  · exact .inl ⟨i, hi, by simp only [jumpTo, he, except_ok_bind]⟩
  · exact .inr ⟨hr, by simp only [jumpTo, he, except_error_bind]⟩

/-- The ALU does not move `pc`. -/
@[simp] theorem alu_pc (op : AluOp) (a b : Fin 8) : (alu op a b s).pc = s.pc := by cases op <;> simp [alu]

/-- An ALU instruction: the operation and the advance, or one of its three faults, in the order of R145. -/
theorem aluInstr_cases (op : AluOp) (ra rb : Byte) :
    (∃ a b : Fin 8, ra.toNat = a.val ∧ rb.toNat = b.val ∧ s.pc.toNat + 3 ≤ 255 ∧
      aluInstr op ra rb s = .next ((alu op a b s).setPc (BitVec.ofNat 8 (s.pc.toNat + 3)))) ∨
    (7 < ra.toNat ∧ aluInstr op ra rb s = .next (s.raise ⟨.registerFault, ra.toNat⟩)) ∨
    (ra.toNat ≤ 7 ∧ 7 < rb.toNat ∧ aluInstr op ra rb s = .next (s.raise ⟨.registerFault, rb.toNat⟩)) ∨
    (ra.toNat ≤ 7 ∧ rb.toNat ≤ 7 ∧ 255 < s.pc.toNat + 3 ∧
      aluInstr op ra rb s = .next (s.raise ⟨.addressFault, s.pc.toNat + 3⟩)) := by
  rcases regOperand_cases ra with ⟨a, ha, ea⟩ | ⟨ha, ea⟩
  · rcases regOperand_cases rb with ⟨b, hb, eb⟩ | ⟨hb, eb⟩
    · rcases advance_cases (alu op a b s) 3 with ⟨hp, ep⟩ | ⟨hp, ep⟩
      · rw [alu_pc] at hp ep
        exact .inl ⟨a, b, ha, hb, hp, by simp only [aluInstr, ea, eb, except_ok_bind, ep, attempt_ok]⟩
      · rw [alu_pc] at hp ep
        exact .inr (.inr (.inr ⟨by omega, by omega, hp,
          by simp only [aluInstr, ea, eb, except_ok_bind, ep, attempt_error]⟩))
    · exact .inr (.inr (.inl ⟨by omega, hb,
        by simp only [aluInstr, ea, eb, except_ok_bind, except_error_bind, attempt_error]⟩))
  · exact .inr (.inl ⟨ha, by simp only [aluInstr, ea, except_error_bind, attempt_error]⟩)

end Sys2Proof.Machine
end

