-- ==== Sys2Proof/Laws/PerInstr.lean ====
section
/-! SUPPORT. Statements made of each instruction as syntax, one lemma per constructor. -/

namespace Sys2Proof.Laws.LengthFromOpcode

/-- The encoding has `length` bytes, between one and three, and the two top bits of the opcode are the number of operand
bytes (30_encoding.md R50; the regularity R60 states, which decodes nothing). -/
def Statement (i : Instr) : Prop :=
  (encode i).length = i.length ∧ 1 ≤ i.length ∧ i.length ≤ 3 ∧ i.opcode.toNat / 64 + 1 = i.length

theorem hlt : Statement .hlt := ⟨rfl, (length_bounds _).1, (length_bounds _).2, opcode_operandCount _⟩
theorem ldi (r imm : Byte) : Statement (.ldi r imm) := ⟨rfl, (length_bounds _).1, (length_bounds _).2, opcode_operandCount _⟩
theorem prn (r : Byte) : Statement (.prn r) := ⟨rfl, (length_bounds _).1, (length_bounds _).2, opcode_operandCount _⟩
theorem mul (ra rb : Byte) : Statement (.mul ra rb) := ⟨rfl, (length_bounds _).1, (length_bounds _).2, opcode_operandCount _⟩
theorem add (ra rb : Byte) : Statement (.add ra rb) := ⟨rfl, (length_bounds _).1, (length_bounds _).2, opcode_operandCount _⟩
theorem push (r : Byte) : Statement (.push r) := ⟨rfl, (length_bounds _).1, (length_bounds _).2, opcode_operandCount _⟩
theorem pop (r : Byte) : Statement (.pop r) := ⟨rfl, (length_bounds _).1, (length_bounds _).2, opcode_operandCount _⟩
theorem call (r : Byte) : Statement (.call r) := ⟨rfl, (length_bounds _).1, (length_bounds _).2, opcode_operandCount _⟩
theorem ret : Statement .ret := ⟨rfl, (length_bounds _).1, (length_bounds _).2, opcode_operandCount _⟩
theorem cmp (ra rb : Byte) : Statement (.cmp ra rb) := ⟨rfl, (length_bounds _).1, (length_bounds _).2, opcode_operandCount _⟩
theorem jmp (r : Byte) : Statement (.jmp r) := ⟨rfl, (length_bounds _).1, (length_bounds _).2, opcode_operandCount _⟩
theorem jeq (r : Byte) : Statement (.jeq r) := ⟨rfl, (length_bounds _).1, (length_bounds _).2, opcode_operandCount _⟩
theorem jne (r : Byte) : Statement (.jne r) := ⟨rfl, (length_bounds _).1, (length_bounds _).2, opcode_operandCount _⟩

end Sys2Proof.Laws.LengthFromOpcode
end

