-- ==== Sys2Proof/Laws/Run.lean ====
section
/-! SUPPORT. A run, one step at a time, and that it is the host's run of the machine. -/

namespace Sys2Proof.Machine

@[simp] theorem run_zero (s : State) : run 0 s = .next s := rfl

theorem run_succ {s t : State} (k : Nat) (h : step s = .next t) : run (k + 1) s = run k t := by
  simp only [run, h]

theorem run_refused {s : State} {r : Refusal} (k : Nat) (h : step s = .refused r) : run (k + 1) s = .refused r := by
  simp only [run, h]

theorem core_run_next (M : Host.Core) (k : Nat) (s t : M.State) (h : M.step s = .next t) :
    M.run (k + 1) s = M.run k t := by
  simp only [Host.Core.run, h]

theorem core_run_refused (M : Host.Core) (k : Nat) (s : M.State) (r : M.Refusal) (h : M.step s = .refused r) :
    M.run (k + 1) s = .refused r := by
  simp only [Host.Core.run, h]

/-- `run` is what `Host.Core.run` computes for this machine. -/
theorem run_eq_core (k : Nat) : ∀ s : State, Host.Core.run Sys2Proof.core k s = run k s := by
  induction k with
  | zero => exact fun _ => rfl
  | succ k ih =>
    intro s
    cases h : step s with
    | next t => exact (core_run_next Sys2Proof.core k s t h).trans ((ih t).trans (run_succ k h).symm)
    | fault r => exact nomatch r
    | refused r => exact (core_run_refused Sys2Proof.core k s r h).trans (run_refused k h).symm

end Sys2Proof.Machine
end

