-- ==== Sys2Proof/Tests/Slice0.lean ====
section
/-! SUPPORT. Tests: the static checks, the encodings written out from the spec, vectors of 95_test_vectors.md (one step each),
and a witness for the hypotheses of every statement. Expected values are the spec's own. -/

namespace Sys2Proof.Tests

open Sys2Proof Sys2Proof.Machine

/-- A running state as reset leaves it with `SP_RESET` = 0, with `bytes` stored from `pc` up. -/
def at' (pc : Byte) (bytes : List Nat) : State :=
  { State.resetWith 0 with pc := pc, mem := Memory.loadFrom [] pc.toNat bytes }

/-- The state with register values set. -/
def withRegs (s : State) (rs : List (Fin 8 × Byte)) : State := rs.foldl (fun t p => t.setReg p.1 p.2) s

/-- The state with one more cell written. -/
def withCell (s : State) (a : Nat) (v : Byte) : State := { s with mem := s.mem.write a v }

/-- The state with the flags E, L, G. -/
def withFlags (s : State) (e l g : Bool) : State := { s with equal := e, less := l, greater := g }

/-! ### WellFormed: an ill-formed term for each check -/

/-- R55: 8 names no register, for every constructor and operand position. -/
theorem test_ill_registers :
    Instr.registersExist (.ldi 8 0) = false ∧ Instr.registersExist (.prn 8) = false ∧
    Instr.registersExist (.mul 8 0) = false ∧ Instr.registersExist (.mul 0 8) = false ∧
    Instr.registersExist (.add 8 0) = false ∧ Instr.registersExist (.add 0 255) = false ∧
    Instr.registersExist (.push 8) = false ∧ Instr.registersExist (.pop 8) = false ∧
    Instr.registersExist (.call 8) = false ∧ Instr.registersExist (.cmp 8 0) = false ∧
    Instr.registersExist (.cmp 0 8) = false ∧ Instr.registersExist (.jmp 8) = false ∧
    Instr.registersExist (.jeq 8) = false ∧ Instr.registersExist (.jne 8) = false ∧
    Instr.registersExist (.ldi 7 255) = true := by decide

/-- R185 (V-RST-3): a value of 256 is refused, and 255 is not. -/
theorem test_ill_image_value : imageWellFormed [1, 256] = false ∧ imageWellFormed [1, 255] = true := by decide

/-- R185 (V-RST-3, V-RST-4): 257 bytes are refused, and 256 are not. -/
theorem test_ill_image_length :
    imageWellFormed (List.replicate 257 1) = false ∧ imageWellFormed (List.replicate 256 1) = true := by
  decide +kernel

/-! ### Decoding: each constructor's bytes, written out in binary from R57 and R51 to R54 -/

theorem test_decode_hlt : decode 0b00000001 0xAA 0xBB = .ok .hlt ∧ encode .hlt = [0b00000001] := by decide
theorem test_decode_ldi : decode 0b10000010 0x07 0xF4 = .ok (.ldi 7 0xF4) ∧ encode (.ldi 7 0xF4) = [0b10000010, 0x07, 0xF4] := by
  decide
theorem test_decode_prn : decode 0b01000111 0x05 0xFF = .ok (.prn 5) ∧ encode (.prn 5) = [0b01000111, 0x05] := by decide
theorem test_decode_mul : decode 0b10100010 0x03 0x80 = .ok (.mul 3 0x80) ∧ encode (.mul 3 0x80) = [0b10100010, 0x03, 0x80] := by
  decide
theorem test_decode_add : decode 0b10100000 0x01 0x02 = .ok (.add 1 2) ∧ encode (.add 1 2) = [0b10100000, 0x01, 0x02] := by
  decide
theorem test_decode_push : decode 0b01000101 0x01 0x00 = .ok (.push 1) ∧ encode (.push 1) = [0b01000101, 0x01] := by decide
theorem test_decode_pop : decode 0b01000110 0x02 0x00 = .ok (.pop 2) ∧ encode (.pop 2) = [0b01000110, 0x02] := by decide
theorem test_decode_call : decode 0b01010000 0x01 0x00 = .ok (.call 1) ∧ encode (.call 1) = [0b01010000, 0x01] := by decide
theorem test_decode_ret : decode 0b00010001 0xFF 0xFF = .ok .ret ∧ encode .ret = [0b00010001] := by decide
theorem test_decode_cmp : decode 0b10100111 0x04 0x05 = .ok (.cmp 4 5) ∧ encode (.cmp 4 5) = [0b10100111, 0x04, 0x05] := by
  decide
theorem test_decode_jmp : decode 0b01010100 0xC8 0x00 = .ok (.jmp 0xC8) ∧ encode (.jmp 0xC8) = [0b01010100, 0xC8] := by decide
theorem test_decode_jeq : decode 0b01010101 0x02 0x00 = .ok (.jeq 2) ∧ encode (.jeq 2) = [0b01010101, 0x02] := by decide
theorem test_decode_jne : decode 0b01010110 0xFF 0x00 = .ok (.jne 0xFF) ∧ encode (.jne 0xFF) = [0b01010110, 0xFF] := by decide

/-- V-ILL-1, V-ILL-3, V-ILL-4, V-ILL-5: bytes that look like opcodes and are not. -/
theorem test_decode_illegal :
    decode 0x00 0 0 = .error (.illegalOpcode 0x00) ∧ decode 0x83 0 0 = .error (.illegalOpcode 0x83) ∧
    decode 0xA1 0 1 = .error (.illegalOpcode 0xA1) ∧ decode 0x02 0 0 = .error (.illegalOpcode 0x02) := by decide

/-- The table's own numbers: LDI `match 0x820000` over 24 bits, PRN 0x4700 over 16, HLT 0x01 over 8 (R57). -/
theorem test_table_words :
    decodeTableWord 24 0x820000 = some (.ldi 0 0) ∧ decodeTableWord 24 0x820108 = some (.ldi 1 8) ∧
    decodeTableWord 16 0x4700 = some (.prn 0) ∧ decodeTableWord 8 0x01 = some .hlt ∧
    decodeTableWord 24 0x000000 = none := by decide

/-- A byte list that ends inside its instruction. -/
theorem test_truncated :
    decodeBytes [] = .error .truncated ∧ decodeBytes [0x82, 0x00] = .error .truncated ∧
    decodeBytes [0x11] = .ok (.ret, []) := by decide

/-! ### One step each, from 95_test_vectors.md; "everything not listed unchanged" -/

/-- V-HLT-3. -/
theorem test_hlt_at_253 :
    nextState (step (at' 0xFD [0x01])) = some { at' 0xFD [0x01] with pc := 0xFE, running := false } := by decide
/-- V-HLT-4. -/
theorem test_hlt_at_254 :
    nextState (step (at' 0xFE [0x01])) = some (faultedState (at' 0xFE [0x01]) .addressFault 256) := by decide
/-- V-LDI-8. -/
theorem test_ldi_at_252 :
    nextState (step (at' 0xFC [0x82, 1, 0xAA])) = some { withRegs (at' 0xFC [0x82, 1, 0xAA]) [(1, 0xAA)] with pc := 0xFF } := by
  decide
/-- V-LDI-7. -/
theorem test_ldi_fault_priority :
    nextState (step (at' 0xFD [0x82, 0xFF, 7])) = some (faultedState (at' 0xFD [0x82, 0xFF, 7]) .registerFault 255) := by decide
/-- V-PRN-1. -/
theorem test_prn :
    nextState (step (withRegs (at' 9 [0x47, 0]) [(0, 0x11)])) =
      some { withRegs (at' 9 [0x47, 0]) [(0, 0x11)] with pc := 0x0B, out := [17] } := by decide
/-- V-PRN-5. -/
theorem test_prn_bad_index :
    nextState (step (at' 0 [0x47, 8])) = some (faultedState (at' 0 [0x47, 8]) .registerFault 8) := by decide
/-- V-ADD-2. -/
theorem test_add_wraps :
    nextState (step (withRegs (at' 0 [0xA0, 0, 1]) [(0, 0xC8), (1, 0x64)])) =
      some { withRegs (at' 0 [0xA0, 0, 1]) [(0, 0x2C), (1, 0x64)] with pc := 3 } := by decide
/-- V-ADD-12. -/
theorem test_add_reports_first_operand :
    nextState (step (at' 0 [0xA0, 9, 0x0A])) = some (faultedState (at' 0 [0xA0, 9, 0x0A]) .registerFault 9) := by decide
/-- V-MUL-5. -/
theorem test_mul_squares :
    nextState (step (withRegs (at' 0 [0xA2, 0, 0]) [(0, 0x2C)])) =
      some { withRegs (at' 0 [0xA2, 0, 0]) [(0, 0x90)] with pc := 3 } := by decide
/-- V-MUL-9. -/
theorem test_mul_at_253 :
    nextState (step (withRegs (at' 0xFD [0xA2, 0, 1]) [(0, 3), (1, 3)])) =
      some (faultedState (withRegs (at' 0xFD [0xA2, 0, 1]) [(0, 3), (1, 3)]) .addressFault 256) := by decide
/-- V-CMP-6: the stale E is cleared. -/
theorem test_cmp_one_hot :
    nextState (step (withFlags (withRegs (at' 0 [0xA7, 0, 1]) [(0, 3), (1, 5)]) true false false)) =
      some { withFlags (withRegs (at' 0 [0xA7, 0, 1]) [(0, 3), (1, 5)]) false true false with pc := 3 } := by decide
/-- V-CMP-4: unsigned. -/
theorem test_cmp_unsigned :
    nextState (step (withRegs (at' 0 [0xA7, 0, 1]) [(0, 0xFF), (1, 1)])) =
      some { withFlags (withRegs (at' 0 [0xA7, 0, 1]) [(0, 0xFF), (1, 1)]) false false true with pc := 3 } := by decide
/-- V-PUSH-2: the stack pointer wraps from 0 to 0xFF. -/
theorem test_push_wraps :
    nextState (step (withRegs (at' 0 [0x45, 1]) [(1, 0xAB)])) =
      some { withCell (withRegs (at' 0 [0x45, 1]) [(1, 0xAB), (7, 0xFF)]) 0xFF 0xAB with pc := 2 } := by decide
/-- V-PUSH-3. -/
theorem test_push_r7 :
    nextState (step (withRegs (at' 0 [0x45, 7]) [(7, 0xF4)])) =
      some { withCell (withRegs (at' 0 [0x45, 7]) [(7, 0xF3)]) 0xF3 0xF3 with pc := 2 } := by decide
/-- V-POP-2: the stack pointer wraps from 0xFF to 0. -/
theorem test_pop_wraps :
    nextState (step (withCell (withRegs (at' 0 [0x46, 2]) [(7, 0xFF)]) 0xFF 0x5A)) =
      some { withCell (withRegs (at' 0 [0x46, 2]) [(2, 0x5A), (7, 0)]) 0xFF 0x5A with pc := 2 } := by decide
/-- V-POP-3. -/
theorem test_pop_r7 :
    nextState (step (withCell (withRegs (at' 0 [0x46, 7]) [(7, 0xF3)]) 0xF3 0x20)) =
      some { withCell (withRegs (at' 0 [0x46, 7]) [(7, 0x21)]) 0xF3 0x20 with pc := 2 } := by decide
/-- V-CALL-3. -/
theorem test_call_r7 :
    nextState (step (withRegs (at' 0x10 [0x50, 7]) [(7, 0xF4)])) =
      some { withCell (withRegs (at' 0x10 [0x50, 7]) [(7, 0xF3)]) 0xF3 0x12 with pc := 0xF3 } := by decide
/-- V-CALL-5. -/
theorem test_call_at_253 :
    nextState (step (withRegs (at' 0xFD [0x50, 0]) [(0, 0x30), (7, 0x80)])) =
      some { withCell (withRegs (at' 0xFD [0x50, 0]) [(0, 0x30), (7, 0x7F)]) 0x7F 0xFF with pc := 0x30 } := by decide
/-- V-RET-2. -/
theorem test_ret_wraps :
    nextState (step (withCell (withRegs (at' 0x11 [0x11]) [(7, 0xFF)]) 0xFF 0x22)) =
      some { withCell (withRegs (at' 0x11 [0x11]) [(7, 0)]) 0xFF 0x22 with pc := 0x22 } := by decide
/-- V-RET-3. -/
theorem test_ret_ignores_operands :
    nextState (step (withCell (withRegs (at' 0x30 [0x11, 0xFF, 0xFF]) [(7, 0x90)]) 0x90 5)) =
      some { withCell (withRegs (at' 0x30 [0x11, 0xFF, 0xFF]) [(7, 0x91)]) 0x90 5 with pc := 5 } := by decide
/-- V-JMP-5. -/
theorem test_jmp_r7 :
    nextState (step (withRegs (at' 0 [0x54, 7]) [(7, 0xF4)])) =
      some { withRegs (at' 0 [0x54, 7]) [(7, 0xF4)] with pc := 0xF4 } := by decide
/-- V-JMP-3. -/
theorem test_jmp_bad_index :
    nextState (step (at' 0 [0x54, 0xC8])) = some (faultedState (at' 0 [0x54, 0xC8]) .registerFault 200) := by decide
/-- V-JEQ-1. -/
theorem test_jeq_taken :
    nextState (step (withFlags (withRegs (at' 0x10 [0x55, 2]) [(2, 0x20)]) true false false)) =
      some { withFlags (withRegs (at' 0x10 [0x55, 2]) [(2, 0x20)]) true false false with pc := 0x20 } := by decide
/-- V-JEQ-5: a bad index is no fault when the jump is not taken. -/
theorem test_jeq_not_taken_bad_index :
    nextState (step (withFlags (at' 0x10 [0x55, 8]) false false true)) =
      some { withFlags (at' 0x10 [0x55, 8]) false false true with pc := 0x12 } := by decide
/-- V-JNE-2. -/
theorem test_jne_not_taken :
    nextState (step (withFlags (withRegs (at' 0x14 [0x56, 3]) [(3, 0x0C)]) true false false)) =
      some { withFlags (withRegs (at' 0x14 [0x56, 3]) [(3, 0x0C)]) true false false with pc := 0x16 } := by decide
/-- V-JNE-4. -/
theorem test_jne_taken_bad_index :
    nextState (step (withFlags (at' 0x14 [0x56, 0xFF]) false false true)) =
      some (faultedState (withFlags (at' 0x14 [0x56, 0xFF]) false false true) .registerFault 255) := by decide
/-- V-ILL-6: at 254 the fetch fault wins over the illegal opcode; V-ILL-7: at 253 it is the opcode. -/
theorem test_illegal_at_top :
    nextState (step (at' 0xFE [0])) = some (faultedState (at' 0xFE [0]) .addressFault 256) ∧
    nextState (step (at' 0xFD [0])) = some (faultedState (at' 0xFD [0]) .illegalOpcode 0) := by decide
/-- R140: the codes. -/
theorem test_cause_codes :
    Cause.code .illegalOpcode = 1 ∧ Cause.code .addressFault = 2 ∧ Cause.code .registerFault = 3 := by decide
/-- R189 (S7): the output 17 is printed as `17` and a line break. -/
theorem test_render : renderOut [17, 255, 0] = ['1', '7', '\n', '2', '5', '5', '\n', '0', '\n'] := by decide
/-- A table word placed at reset is what the first step runs, for a stacking row too. -/
theorem test_first_step_runs_placed_word :
    nextState (step (State.reset.withFetchWord 16 0x4500)) =
      nextState (exec (.push 0) (State.reset.withFetchWord 16 0x4500)) := by decide

/-! ### Witnesses: for every statement with hypotheses, values that meet them; one per clause, at a boundary -/

theorem witness_OpcodeMapIsClosed :
    (0x00 : Byte) ∉ ([0x01, 0x82, 0x47, 0xA2, 0xA0, 0x45, 0x46, 0x50, 0x11, 0xA7, 0x54, 0x55, 0x56] : List Byte) ∧
    (0x57 : Byte) ∉ ([0x01, 0x82, 0x47, 0xA2, 0xA0, 0x45, 0x46, 0x50, 0x11, 0xA7, 0x54, 0x55, 0x56] : List Byte) := by decide

theorem witness_DecodeInvertsEncode :
    decodeBytes [0xA0, 0x07, 0xFF, 0x01] = .ok (.add 7 0xFF, [0x01]) ∧
    [0xA0, 0x07, 0xFF, 0x01] = encode (.add 7 0xFF) ++ [0x01] := by decide

theorem witness_PlacedTableWordRuns :
    (at' 0xFD []).running = true ∧ (at' 0xFD []).pc.toNat ≤ 253 ∧ (at' 0xFD []).mem.wf = true ∧
    decodeTableWord 24 0xA00102 = some (.add 1 2) := by decide

theorem witness_StepRunsDecodedInstruction :
    ((at' 0xFD [0x47, 5]).running = true ∧ (at' 0xFD [0x47, 5]).pc.toNat ≤ 253 ∧
      decode ((at' 0xFD [0x47, 5]).mem.read 0xFD) ((at' 0xFD [0x47, 5]).mem.read 0xFE)
        ((at' 0xFD [0x47, 5]).mem.read 0xFF) = .ok (.prn 5)) ∧
    (∀ k : Fin 2, (at' 0xFD [0x47, 5]).mem.read (0xFD + k.val) = (encode (.prn 5))[k.val]) := by decide

/-- Every row of the dispatch and the "else" row, each at `pc` = 253, and the fetch fault at 254. -/
theorem witness_StepDispatchesOnOpcode :
    ((at' 0xFE [0x01]).running = true ∧ 253 < (at' 0xFE [0x01]).pc.toNat) ∧
    (∀ b ∈ ([0x01, 0x82, 0x47, 0xA2, 0xA0, 0x45, 0x46, 0x50, 0x11, 0xA7, 0x54, 0x55, 0x56, 0x00] : List Byte),
      (at' 0xFD [b.toNat]).running = true ∧ (at' 0xFD [b.toNat]).pc.toNat ≤ 253 ∧
      (at' 0xFD [b.toNat]).mem.read (at' 0xFD [b.toNat]).pc.toNat = b) ∧
    (0x00 : Byte) ∉ ([0x01, 0x82, 0x47, 0xA2, 0xA0, 0x45, 0x46, 0x50, 0x11, 0xA7, 0x54, 0x55, 0x56] : List Byte) := by decide

theorem witness_FetchFaultsAtTopOfMemory :
    ((at' 0xFE []).running = true ∧ 254 ≤ (at' 0xFE []).pc.toNat) ∧
    ((at' 0xFF []).running = true ∧ 254 ≤ (at' 0xFF []).pc.toNat) := by decide

/-- One running state for each case of the priority chain. -/
theorem witness_FaultPriority :
    (at' 0xFE [0x82]).running = true ∧ 254 ≤ (at' 0xFE [0x82]).pc.toNat ∧
    (at' 0xFD [0x83]).mem.read 0xFD = 0x83 ∧
    (at' 0xFD [0xA0, 8, 8]).mem.read 0xFE = 8 ∧ (at' 0xFD [0xA0, 7, 8]).mem.read 0xFF = 8 ∧
    (at' 0xFD [0xA0, 7, 7]).pc.toNat = 253 ∧ (at' 0xFC [0xA0, 7, 7]).pc.toNat ≠ 253 ∧
    (withFlags (at' 0 [0x55, 8]) true false false).equal = true ∧
    (withFlags (at' 0 [0x56, 8]) true false false).equal = true := by decide

theorem witness_FaultsArePrecise :
    step (at' 0xFF []) = .next (faultedState (at' 0xFF []) .addressFault 256) ∧
    step (at' 0 [0x01]) = .next { at' 0 [0x01] with pc := 1, running := false } := ⟨rfl, rfl⟩

theorem witness_StoppedCoreDoesNothing :
    (at' 0 [0x01]).halt.running = false ∧ (faultedState (at' 0 []) .illegalOpcode 0).running = false := by decide

theorem witness_HaltedExactlyByHlt :
    (at' 0xFD [0x01]).isRunning ∧
    step (at' 0xFD [0x01]) = .next { at' 0xFD [0x01] with pc := 0xFE, running := false } := ⟨by decide, rfl⟩

theorem witness_LoadPlacesImage :
    (List.replicate 256 255).length ≤ 256 ∧ (∀ b ∈ List.replicate 256 255, b < 256) := by decide +kernel

theorem witness_ResetValues : (0 : Fin 8) ≠ 7 ∧ (6 : Fin 8) ≠ 7 := by decide

theorem witness_HltHalts : (at' 0xFD [0x01]).pc.toNat ≤ 253 ∧ (at' 0xFD [0x01]).fault = none := by decide

theorem witness_LdiLoadsImmediate :
    ((7 : Byte).toNat = (7 : Fin 8).val ∧ (at' 0xFC []).pc.toNat + 3 ≤ 255) ∧ 7 < (8 : Byte).toNat ∧
    ((7 : Byte).toNat ≤ 7 ∧ 255 < (at' 0xFD []).pc.toNat + 3) := by decide

theorem witness_PrnAppendsRegister :
    ((7 : Byte).toNat = (7 : Fin 8).val ∧ (at' 0xFD []).pc.toNat ≤ 253) ∧ 7 < (8 : Byte).toNat := by decide

/-- The clauses of ADD; those of MUL and CMP have the same hypotheses. -/
theorem witness_AddWritesSumModulo256 :
    ((7 : Byte).toNat = (7 : Fin 8).val ∧ (0 : Byte).toNat = (0 : Fin 8).val ∧ (at' 0xFC []).pc.toNat + 3 ≤ 255) ∧
    7 < (8 : Byte).toNat ∧ ((7 : Byte).toNat ≤ 7 ∧ 7 < (255 : Byte).toNat) ∧
    ((0 : Byte).toNat ≤ 7 ∧ (7 : Byte).toNat ≤ 7 ∧ 255 < (at' 0xFD []).pc.toNat + 3) := by decide
theorem witness_MulWritesProductModulo256 :
    ((7 : Byte).toNat = (7 : Fin 8).val ∧ (7 : Byte).toNat = (7 : Fin 8).val ∧ (at' 0xFC []).pc.toNat + 3 ≤ 255) ∧
    7 < (255 : Byte).toNat ∧ ((0 : Byte).toNat ≤ 7 ∧ 7 < (8 : Byte).toNat) ∧
    ((7 : Byte).toNat ≤ 7 ∧ (0 : Byte).toNat ≤ 7 ∧ 255 < (at' 0xFD []).pc.toNat + 3) := by decide
theorem witness_CmpSetsOneFlag :
    ((0 : Byte).toNat = (0 : Fin 8).val ∧ (7 : Byte).toNat = (7 : Fin 8).val ∧ (at' 0xFC []).pc.toNat + 3 ≤ 255) ∧
    7 < (8 : Byte).toNat ∧ ((7 : Byte).toNat ≤ 7 ∧ 7 < (8 : Byte).toNat) ∧
    ((7 : Byte).toNat ≤ 7 ∧ (7 : Byte).toNat ≤ 7 ∧ 255 < (at' 0xFD []).pc.toNat + 3) := by decide

theorem witness_PushStoresBelowStackTop :
    ((7 : Byte).toNat = (7 : Fin 8).val ∧ (at' 0xFD [0x45, 7]).pc.toNat ≤ 253 ∧ (at' 0xFD [0x45, 7]).mem.wf = true) ∧
    (0 : Nat) ≠ ((at' 0xFD [0x45, 7]).sp - 1).toNat ∧ 7 < (8 : Byte).toNat := by decide
theorem witness_PopLoadsStackTop :
    ((7 : Byte).toNat = (7 : Fin 8).val ∧ (at' 0xFD []).pc.toNat ≤ 253) ∧ 7 < (8 : Byte).toNat := by decide
theorem witness_CallPushesReturnAddress :
    ((0 : Byte).toNat = (0 : Fin 8).val ∧ (at' 0xFD [0x50]).pc.toNat ≤ 253 ∧ (at' 0xFD [0x50]).mem.wf = true) ∧
    (254 : Nat) ≠ ((at' 0xFD [0x50]).sp - 1).toNat ∧ 7 < (8 : Byte).toNat := by decide
theorem witness_JmpJumpsToRegister : (7 : Byte).toNat = (7 : Fin 8).val ∧ 7 < (8 : Byte).toNat := by decide
theorem witness_JeqJumpsWhenEqual :
    ((withFlags (at' 0xFD []) true false false).equal = true ∧ (7 : Byte).toNat = (7 : Fin 8).val) ∧
    ((at' 0xFD []).equal = false ∧ (at' 0xFD []).pc.toNat ≤ 253) ∧
    ((withFlags (at' 0xFD []) true false false).equal = true ∧ 7 < (8 : Byte).toNat) := by decide
theorem witness_JneJumpsWhenNotEqual :
    ((at' 0xFD []).equal = false ∧ (7 : Byte).toNat = (7 : Fin 8).val) ∧
    ((withFlags (at' 0xFD []) true false false).equal = true ∧ (at' 0xFD []).pc.toNat ≤ 253) ∧
    ((at' 0xFD []).equal = false ∧ 7 < (8 : Byte).toNat) := by decide

/-- POP into register 2 changes registers 2 and 7. -/
theorem witness_OnlyListedRegistersChange :
    let s := withCell (withRegs (at' 0 []) [(7, 0xF3)]) 0xF3 0x2C
    let t := { withRegs s [(2, 0x2C), (7, 0xF4)] with pc := 2 }
    exec (.pop 2) s = .next t ∧ t.reg 2 ≠ s.reg 2 ∧ t.reg 7 ≠ s.reg 7 := ⟨rfl, by decide, by decide⟩

/-- ADD R0, R1 does not read register 2; JEQ not taken does not read its own operand's register. -/
theorem witness_OnlyListedRegistersAreRead :
    ((0 : Byte).toNat ≠ (2 : Fin 8).val ∧ (1 : Byte).toNat ≠ (2 : Fin 8).val ∧
      exec (.add 0 1) (at' 0 []) = .next { at' 0 [] with pc := 3 }) ∧
    (((at' 0 []).equal = true → (2 : Byte).toNat ≠ (2 : Fin 8).val) ∧
      exec (.jeq 2) (at' 0 []) = .next { at' 0 [] with pc := 2 }) := ⟨⟨by decide, by decide, rfl⟩, by decide, rfl⟩

theorem witness_OnlyCmpChangesFlags :
    (exec (.ldi 0 5) (at' 0 []) = .next { withRegs (at' 0 []) [(0, 5)] with pc := 3 } ∧
      ∀ ra rb, Instr.ldi 0 5 ≠ .cmp ra rb) ∧
    (step (at' 0 [0x82, 0, 5]) = .next { withRegs (at' 0 [0x82, 0, 5]) [(0, 5)] with pc := 3 } ∧
      (at' 0 [0x82, 0, 5]).mem.read (at' 0 [0x82, 0, 5]).pc.toNat ≠ 0xA7) :=
  ⟨⟨rfl, fun _ _ => by simp⟩, rfl, by decide⟩

/-- A PUSH that stores at 0xFF, with a cell beside it at 0xFE; a LDI that stores nothing. -/
theorem witness_OnlyPushAndCallStore :
    exec (.push 1) (withRegs (at' 0 []) [(1, 0xAB)]) =
      .next { withCell (withRegs (at' 0 []) [(1, 0xAB), (7, 0xFF)]) 0xFF 0xAB with pc := 2 } ∧
    (0xFE : Nat) ≠ (withRegs (at' 0 []) [(1, 0xAB)]).decSp.sp.toNat := ⟨rfl, by decide⟩

theorem witness_OnlyPrnOutputs :
    exec (.prn 5) (withRegs (at' 0 []) [(5, 0xFF)]) =
      .next { withRegs (at' 0 []) [(5, 0xFF)] with pc := 2, out := [255] } := rfl

theorem witness_OutputIsAppendOnly :
    run 1 (withRegs (at' 0 [0x47, 0]) [(0, 3)]) =
      .next { withRegs (at' 0 [0x47, 0]) [(0, 3)] with pc := 2, out := [3] } := rfl

theorem witness_OnlyHltAndFaultsStop :
    exec .hlt (at' 0 []) = .next { at' 0 [] with pc := 1, running := false } ∧
    exec (.jmp 8) (at' 0 []) = .next (faultedState (at' 0 []) .registerFault 8) ∧
    exec (.jmp 7) (at' 1 []) = .next { at' 1 [] with pc := 0 } := ⟨rfl, rfl, rfl⟩

theorem witness_NextProgramCounter :
    ((at' 0xFD []).pc.toNat ≤ 253 ∧ exec (.jne 7) (at' 0xFD []) = .next { at' 0xFD [] with pc := 0 }) ∧
    ((at' 0xFC []).pc.toNat ≤ 253 ∧ exec (.cmp 0 1) (at' 0xFC []) = .next { at' 0xFC [] with pc := 0xFF, equal := true }) :=
  ⟨⟨by decide, rfl⟩, by decide, rfl⟩

/-- V-PP-2, moved to the last address at which the pair fits. -/
theorem witness_PushThenPopRestores :
    let s := withRegs (at' 0xFB [0x45, 0, 0x46, 6]) [(0, 0x2A), (7, 0x80)]
    (0 : Fin 8) ≠ 7 ∧ (6 : Fin 8) ≠ 7 ∧ s.running = true ∧ s.mem.wf = true ∧ s.pc.toNat ≤ 251 ∧
    s.mem.read s.pc.toNat = 0x45 ∧ (s.mem.read (s.pc.toNat + 1)).toNat = (0 : Fin 8).val ∧
    s.mem.read (s.pc.toNat + 2) = 0x46 ∧ (s.mem.read (s.pc.toNat + 3)).toNat = (6 : Fin 8).val ∧
    (s.sp - 1).toNat ≠ s.pc.toNat + 2 ∧ (s.sp - 1).toNat ≠ s.pc.toNat + 3 := by decide

/-- V-CR-1, with its CALL at 253: the CALL's state and the state at the RET. -/
theorem witness_RetReturnsAfterCall :
    let s := withCell (withRegs (at' 0xFD [0x50, 1]) [(1, 0x0C), (7, 0xF4)]) 0x0C 0x11
    let t := { withCell (withRegs s [(7, 0xF3)]) 0xF3 0xFF with pc := 0x0C }
    (s.running = true ∧ s.mem.wf = true ∧ s.pc.toNat ≤ 253 ∧ s.mem.read s.pc.toNat = 0x50 ∧
      (s.mem.read (s.pc.toNat + 1)).toNat = (1 : Fin 8).val) ∧
    step s = .next t ∧
    (t.running = true ∧ t.pc.toNat ≤ 253 ∧ t.mem.read t.pc.toNat = 0x11 ∧ t.sp = t.sp ∧
      t.mem.read t.sp.toNat = t.mem.read t.sp.toNat) := ⟨by decide, rfl, by decide⟩

theorem witness_BranchFollowsComparison :
    let s := withRegs (at' 0xFA []) [(0, 5), (1, 5), (2, 7)]
    (0 : Byte).toNat = (0 : Fin 8).val ∧ (1 : Byte).toNat = (1 : Fin 8).val ∧ (2 : Byte).toNat = (2 : Fin 8).val ∧
    (3 : Byte).toNat = (3 : Fin 8).val ∧ s.pc.toNat ≤ 250 ∧ s.reg 0 = s.reg 1 ∧ s.reg 0 ≠ s.reg 2 := by decide

theorem witness_LoadThenPrintOutputs :
    let s := at' 0xFA [0x82, 3, 0xFF, 0x47, 3]
    s.running = true ∧ s.pc.toNat ≤ 250 ∧ s.mem.read s.pc.toNat = 0x82 ∧
    (s.mem.read (s.pc.toNat + 1)).toNat = (3 : Fin 8).val ∧ s.mem.read (s.pc.toNat + 3) = 0x47 ∧
    (s.mem.read (s.pc.toNat + 4)).toNat = (3 : Fin 8).val := by decide

/-- P6: PUSH R0 at 6 stores at 8, the address of the next opcode byte; and the same at the top of memory. -/
theorem witness_StoreIsSeenByNextFetch :
    let s := withRegs (at' 6 [0x45, 0]) [(0, 1), (7, 9)]
    let u := withRegs (at' 0xFB [0x45, 7]) [(7, 0xFE)]
    (s.running = true ∧ s.mem.wf = true ∧ s.pc.toNat ≤ 251 ∧ s.mem.read s.pc.toNat = 0x45 ∧
      (s.mem.read (s.pc.toNat + 1)).toNat = (0 : Fin 8).val ∧ (s.sp - 1).toNat = s.pc.toNat + 2) ∧
    (u.running = true ∧ u.mem.wf = true ∧ u.pc.toNat ≤ 251 ∧ u.mem.read u.pc.toNat = 0x45 ∧
      (u.mem.read (u.pc.toNat + 1)).toNat = (7 : Fin 8).val ∧ (u.sp - 1).toNat = u.pc.toNat + 2) := by decide

/-- A state that meets the invariant with a flag set and takes a step that faults. -/
theorem witness_StepKeepsInvariant :
    let s := withFlags (at' 0x14 [0x56, 0xFF]) false false true
    s.Inv ∧ step s = .next (faultedState s .registerFault 255) ∧ (faultedState s .registerFault 255).Inv :=
  ⟨by decide, rfl, by decide⟩

theorem witness_LoadMeetsInvariant :
    start 0xF4 [0x82, 0, 8] = some { State.resetWith 0xF4 with mem := Memory.loadFrom [] 0 [0x82, 0, 8] } := rfl

/-- Two states that differ in L, G and the output history, each with a run. -/
theorem witness_UnreadStateIsInvisible :
    let s := withRegs (at' 0 [0x47, 0]) [(0, 3)]
    let s' := { withFlags s false true true with out := [9] }
    sameButUnread s s' ∧ run 1 s = .next { s with pc := 2, out := [3] } ∧
    run 1 s' = .next { s' with pc := 2, out := [9, 3] } := ⟨by decide, rfl, rfl⟩

theorem witness_EqualReadsEqualMemories :
    Memory.wf [(0, 5), (255, 1)] = true ∧
    Memory.wf (Memory.write (Memory.write (Memory.write [] 255 1) 7 2) 0 5) = true ∧
    Memory.write (Memory.write (Memory.write (Memory.write [] 255 1) 7 2) 0 5) 7 0 = [(0, 5), (255, 1)] := by decide

theorem witness_NumeralDenotesByte :
    Char.ofNat 48 ∈ renderByte 0 ∧ (renderByte 0).head? = some (Char.ofNat 48) ∧ Char.ofNat 53 ∈ renderByte 255 := by decide

end Sys2Proof.Tests
end

/-! SUPPORT. What `exec` does, said once for all instructions (40_fetch_decode_dispatch.md R73 to R76): the first raise of
its checks in the order of R145 if there is one, else its effect, made of an update that leaves `pc` alone and of the
new `pc`. -/

namespace Sys2Proof

open Machine

/-- The register that an operand byte names once its check has passed (R55); a byte above 7 raises before this is used. -/
def operandReg (r : Byte) : Fin 8 := Fin.ofNat 8 r.toNat

theorem toNat_eq_operandReg {r : Byte} (h : r.toNat ≤ 7) : r.toNat = (operandReg r).val :=
  (Nat.mod_eq_of_lt (by omega)).symm

/-- An operand byte that passed its check and does not name register `k` resolves to another register. -/
theorem operandReg_ne {r : Byte} {k : Fin 8} (hr : r.toNat ≤ 7) (h : r.toNat ≠ k.val) : operandReg r ≠ k := by
  rintro rfl
  exact h (toNat_eq_operandReg hr)

/-- The push shared by PUSH and CALL, its address check passed (43_stack.md R110): decrement `x[7]`, then store there. -/
def Machine.State.pushByte (s : State) (v : Byte) : State :=
  { s.decSp with mem := s.mem.write s.decSp.sp.toNat v }

/-- The first raise of a list of register operand checks followed by `advance(n)` (R145): a byte above 7, else a
successor address above 255. -/
def Machine.firstRaise (pc : Byte) (n : Nat) (operands : List Byte) : Option Raise :=
  match operands with
  | [] => if 255 < pc.toNat + n then some ⟨.addressFault, pc.toNat + n⟩ else none
  | r :: rest => if 7 < r.toNat then some ⟨.registerFault, r.toNat⟩ else Machine.firstRaise pc n rest

namespace Instr

/-- The register operand bytes that the instruction checks, in order; a branch that is not taken checks none (D16). -/
def accessed (i : Instr) (equal : Bool) : List Byte :=
  match i with
  | .hlt | .ret => []
  | .ldi r _ | .prn r | .push r | .pop r | .call r | .jmp r => [r]
  | .mul ra rb | .add ra rb | .cmp ra rb => [ra, rb]
  | .jeq r => if equal then [r] else []
  | .jne r => if !equal then [r] else []

/-- How far the instruction advances `pc` (R75); a jump does not. -/
def advanceBy (i : Instr) (equal : Bool) : Nat :=
  match i with
  | .call _ | .ret | .jmp _ => 0
  | .jeq _ => if equal then 0 else i.length
  | .jne _ => if !equal then 0 else i.length
  | _ => i.length

/-- The first raise of the instruction's checks in a state, if there is one. -/
abbrev firstRaise (i : Instr) (s : State) : Option Raise :=
  Machine.firstRaise s.pc (i.advanceBy s.equal) (i.accessed s.equal)

/-- What the instruction changes besides `pc`, its checks passed. -/
def update (i : Instr) (s : State) : State :=
  match i with
  | .hlt => s.halt
  | .ldi r imm => s.setReg (operandReg r) imm
  | .prn r => s.output (s.reg (operandReg r))
  | .mul ra rb => alu .mul (operandReg ra) (operandReg rb) s
  | .add ra rb => alu .add (operandReg ra) (operandReg rb) s
  | .cmp ra rb => alu .cmp (operandReg ra) (operandReg rb) s
  | .push r => s.pushByte (s.decSp.reg (operandReg r))
  | .pop r => (s.setReg (operandReg r) (s.mem.read s.sp.toNat)).incSp
  | .call _ => s.pushByte (BitVec.ofNat 8 (s.pc.toNat + 2))
  | .ret => s.incSp
  | .jmp _ | .jeq _ | .jne _ => s

/-- The new `pc`, the checks passed (10_state.md R14). -/
def target (i : Instr) (s : State) : Byte :=
  match i with
  | .call r => s.decSp.reg (operandReg r)
  | .ret => s.mem.read s.sp.toNat
  | .jmp r => s.reg (operandReg r)
  | .jeq r => if s.equal then s.reg (operandReg r) else BitVec.ofNat 8 (s.pc.toNat + i.length)
  | .jne r => if !s.equal then s.reg (operandReg r) else BitVec.ofNat 8 (s.pc.toNat + i.length)
  | _ => BitVec.ofNat 8 (s.pc.toNat + i.length)

/-- The whole effect of the instruction, its checks passed. -/
def effect (i : Instr) (s : State) : State := (i.update s).setPc (i.target s)

theorem advanceBy_le_length (i : Instr) (equal : Bool) : i.advanceBy equal ≤ i.length := by
  cases i <;> cases equal <;> simp [advanceBy]

theorem accessed_subset_operandBytes (i : Instr) (equal : Bool) : i.accessed equal ⊆ i.operandBytes := by
  cases i <;> cases equal <;> simp [accessed, operandBytes]

end Instr

namespace Machine

theorem firstRaise_eq_none {pc : Byte} {n : Nat} {operands : List Byte} :
    firstRaise pc n operands = none ↔ (∀ r ∈ operands, r.toNat ≤ 7) ∧ pc.toNat + n ≤ 255 := by
  induction operands with
  | nil => simp [firstRaise]
  | cons r rest ih =>
    by_cases hr : 7 < r.toNat
    · simp [firstRaise, hr]
    · simp [firstRaise, hr, ih, Nat.not_lt.1 hr]

/-- What the checks can raise. -/
theorem firstRaise_eq_some {pc : Byte} {n : Nat} {operands : List Byte} {e : Raise}
    (h : firstRaise pc n operands = some e) :
    (∃ r ∈ operands, 7 < r.toNat ∧ e = ⟨.registerFault, r.toNat⟩) ∨
    (255 < pc.toNat + n ∧ e = ⟨.addressFault, pc.toNat + n⟩) := by
  induction operands with
  | nil =>
    by_cases hp : 255 < pc.toNat + n
    · exact .inr ⟨hp, by simpa [firstRaise, hp] using h.symm⟩
    · simp [firstRaise, hp] at h
  | cons r rest ih =>
    by_cases hr : 7 < r.toNat
    · exact .inl ⟨r, by simp, hr, by simpa [firstRaise, hr] using h.symm⟩
    · rw [firstRaise, if_neg hr] at h
      exact (ih h).imp_left fun ⟨b, hb, he⟩ => ⟨b, List.mem_cons_of_mem r hb, he⟩

/-- A body whose checks meet the given first raise, if any, and which otherwise commits `t`. -/
def guarded (e : Option Raise) (t : State) : Except Raise State := e.elim (.ok t) .error

/-- A register operand's check goes in front of the checks of the rest of the body. -/
theorem regOperand_bind_eq_guarded {pc r : Byte} {n : Nat} {rest : List Byte} {t : State}
    {body : Fin 8 → Except Raise State} (h : body (operandReg r) = guarded (firstRaise pc n rest) t) :
    (regOperand r >>= body) = guarded (firstRaise pc n (r :: rest)) t := by
  by_cases hr : 7 < r.toNat
  · simp [regOperand_error hr, firstRaise, hr, guarded]
  · simp [regOperand_ok (toNat_eq_operandReg (Nat.not_lt.1 hr)), firstRaise, hr, h]

theorem advance_eq_guarded (s : State) (n : Nat) :
    s.advance n = guarded (firstRaise s.pc n []) (s.setPc (BitVec.ofNat 8 (s.pc.toNat + n))) := by
  rcases advance_cases s n with ⟨hp, ha⟩ | ⟨hp, ha⟩
  · simp [ha, firstRaise, Nat.not_lt.2 hp, guarded]
  · simp [ha, firstRaise, hp, guarded]

/-- A body that neither checks a register nor advances raises nothing. -/
theorem ok_eq_guarded (pc : Byte) (t : State) : Except.ok t = guarded (firstRaise pc 0 []) t := by
  have hpc : ¬ 255 < pc.toNat := by omega
  simp [firstRaise, hpc, guarded]

/-- A branch, taken or not (R127, R130). -/
theorem branch_eq_guarded (s : State) (taken : Bool) (r : Byte) :
    branch taken r s =
      guarded (firstRaise s.pc (if taken then 0 else 2) (if taken then [r] else []))
        (s.setPc (if taken then s.reg (operandReg r) else BitVec.ofNat 8 (s.pc.toNat + 2))) := by
  cases taken with
  | false => exact advance_eq_guarded s 2
  | true => exact regOperand_bind_eq_guarded (ok_eq_guarded s.pc _)

/-- Every instruction is its checks and then its effect. -/
theorem exec_eq_attempt (i : Instr) (s : State) : exec i s = attempt s (guarded (i.firstRaise s) (i.effect s)) := by
  cases i with
  | hlt => exact congrArg (attempt s) (advance_eq_guarded s.halt 1)
  | ldi r imm => exact congrArg (attempt s) (regOperand_bind_eq_guarded (advance_eq_guarded (s.setReg _ imm) 3))
  | prn r => exact congrArg (attempt s) (regOperand_bind_eq_guarded (advance_eq_guarded (s.output _) 2))
  | mul ra rb =>
    exact congrArg (attempt s) (regOperand_bind_eq_guarded (regOperand_bind_eq_guarded
      (advance_eq_guarded (alu .mul _ _ s) 3)))
  | add ra rb =>
    exact congrArg (attempt s) (regOperand_bind_eq_guarded (regOperand_bind_eq_guarded
      (advance_eq_guarded (alu .add _ _ s) 3)))
  | cmp ra rb =>
    exact congrArg (attempt s) (regOperand_bind_eq_guarded (regOperand_bind_eq_guarded
      (advance_eq_guarded (alu .cmp _ _ s) 3)))
  | push r =>
    simp only [exec, execPush, storeTop_eq, except_ok_bind]
    exact congrArg (attempt s) (regOperand_bind_eq_guarded (advance_eq_guarded (s.pushByte _) 2))
  | pop r =>
    simp only [exec, execPop, loadTop_eq, except_ok_bind]
    exact congrArg (attempt s) (regOperand_bind_eq_guarded (advance_eq_guarded (s.setReg _ _).incSp 2))
  | call r =>
    simp only [exec, execCall, storeTop_eq, except_ok_bind]
    exact congrArg (attempt s) (regOperand_bind_eq_guarded (ok_eq_guarded s.pc _))
  | ret =>
    simp only [exec, execRet, loadTop_eq, except_ok_bind]
    exact congrArg (attempt s) (ok_eq_guarded s.pc _)
  | jmp r => exact congrArg (attempt s) (regOperand_bind_eq_guarded (ok_eq_guarded s.pc _))
  | jeq r => exact congrArg (attempt s) (branch_eq_guarded s s.equal r)
  | jne r => exact congrArg (attempt s) (branch_eq_guarded s (!s.equal) r)

theorem exec_eq (i : Instr) (s : State) : exec i s = .next ((i.firstRaise s).elim (i.effect s) s.raise) := by
  rw [exec_eq_attempt]
  cases i.firstRaise s <;> rfl

/-- The next state of an instruction is its effect, or the state before with its first raise entered. -/
theorem exec_next_cases {i : Instr} {s t : State} (h : exec i s = .next t) :
    (i.firstRaise s = none ∧ t = i.effect s) ∨ (∃ e, i.firstRaise s = some e ∧ t = s.raise e) := by
  rw [exec_eq] at h
  injection h with h
  subst h
  cases i.firstRaise s with
  | none => exact .inl ⟨rfl, rfl⟩
  | some e => exact .inr ⟨e, rfl, rfl⟩

end Machine
end Sys2Proof

/-! SUPPORT and PROOF. What a step can do (40_fetch_decode_dispatch.md R73), and the invariant it keeps. -/

namespace Sys2Proof.Machine

theorem step_of_stopped {s : State} (h : s.running = false) : step s = .next s := by
  simp [step, stepWith, h]

theorem step_of_fetchInstr_error {s : State} {e : Raise} (hr : s.running = true) (h : fetchInstr s = .error e) :
    step s = .next (s.raise e) := by
  simp [step, stepWith, hr, h]

theorem step_of_fetchInstr_ok {s : State} {i : Instr} (hr : s.running = true) (h : fetchInstr s = .ok i) :
    step s = exec i s := by
  simp [step, stepWith, hr, h]

/-- A step of a stopped core, a step whose fetch raises, and the execution of a fetched instruction. -/
theorem step_cases (s : State) :
    (s.running = false ∧ step s = .next s) ∨
    (s.running = true ∧ ∃ e, fetchInstr s = .error e ∧ step s = .next (s.raise e)) ∨
    (s.running = true ∧ ∃ i, fetchInstr s = .ok i ∧ step s = exec i s) := by
  cases hr : s.running with
  | false => exact .inl ⟨rfl, step_of_stopped hr⟩
  | true =>
    cases hf : fetchInstr s with
    | error e => exact .inr (.inl ⟨rfl, e, rfl, step_of_fetchInstr_error hr hf⟩)
    | ok i => exact .inr (.inr ⟨rfl, i, rfl, step_of_fetchInstr_ok hr hf⟩)

/-- The same of a step's next state. -/
theorem step_next_cases {s t : State} (h : step s = .next t) :
    (s.running = false ∧ t = s) ∨
    (s.running = true ∧ ∃ e, fetchInstr s = .error e ∧ t = s.raise e) ∨
    (s.running = true ∧ ∃ i, fetchInstr s = .ok i ∧ exec i s = .next t) := by
  rcases step_cases s with ⟨hr, hs⟩ | ⟨hr, e, hf, hs⟩ | ⟨hr, i, hf, hs⟩ <;> rw [hs] at h
  · exact .inl ⟨hr, by injection h with h; exact h.symm⟩
  · exact .inr (.inl ⟨hr, e, hf, by injection h with h; exact h.symm⟩)
  · exact .inr (.inr ⟨hr, i, hf, h⟩)

/-- A fetched instruction lies at `pc` ≤ 253, its opcode byte at `pc` and its operand bytes in the two cells after. -/
theorem fetchInstr_ok {s : State} {i : Instr} (h : fetchInstr s = .ok i) :
    s.pc.toNat ≤ 253 ∧ s.mem.read s.pc.toNat = i.opcode ∧
    i.operandBytes ⊆ [s.mem.read (s.pc.toNat + 1), s.mem.read (s.pc.toNat + 2)] := by
  rcases fetchInstr_cases s with ⟨_, hf⟩ | ⟨_, _, hf⟩ | ⟨hp, j, hf, hd⟩
  · simp [hf] at h
  · simp [hf] at h
  · obtain rfl : j = i := by simpa [hf] using h
    obtain ⟨hop, hbytes⟩ := decode_ok hd
    exact ⟨hp, hop, hbytes ▸ List.take_subset _ _⟩

/-! ### The effect of an instruction keeps the invariant's parts -/

@[simp] theorem effect_fault (i : Instr) (s : State) : (i.effect s).fault = s.fault := by cases i <;> rfl

theorem State.pushByte_mem_wf {s : State} (h : s.mem.wf = true) (v : Byte) : (s.pushByte v).mem.wf = true :=
  Memory.write_wf h s.decSp.sp.isLt v

theorem effect_mem_wf {s : State} (h : s.mem.wf = true) (i : Instr) : (i.effect s).mem.wf = true := by
  cases i with
  | push r => exact State.pushByte_mem_wf h _
  | call r => exact State.pushByte_mem_wf h _
  | _ => exact h

/-- CMP alone writes the flags (10_state.md R16). -/
theorem effect_flags {i : Instr} (hi : ∀ ra rb, i ≠ .cmp ra rb) (s : State) :
    (i.effect s).equal = s.equal ∧ (i.effect s).less = s.less ∧ (i.effect s).greater = s.greater := by
  cases i with
  | cmp ra rb => exact absurd rfl (hi ra rb)
  | _ => exact ⟨rfl, rfl, rfl⟩

theorem flagsExclusive_setFlags_compareFlags (s : State) (a b : Byte) :
    (s.setFlags (compareFlags a b)).flagsExclusive := by
  rcases compareFlags_cases a b with ⟨_, h⟩ | ⟨_, h⟩ | ⟨_, h⟩ <;> rw [h] <;> exact ⟨rfl, rfl, rfl⟩

theorem effect_flagsExclusive {s : State} (h : s.flagsExclusive) (i : Instr) : (i.effect s).flagsExclusive := by
  cases i with
  | cmp ra rb => exact flagsExclusive_setFlags_compareFlags s _ _
  | _ => exact h

theorem effect_inv {s : State} (h : s.Inv) (hf : s.fault = none) (i : Instr) : (i.effect s).Inv := by
  obtain ⟨hmem, hflags, -⟩ := h
  refine ⟨effect_mem_wf hmem i, effect_flagsExclusive hflags i, ?_⟩
  simp [State.latchLegal, hf]

/-! ### Fault entry keeps the invariant, with a legal record -/

/-- The record that entering the raise at this state's `pc` leaves. -/
abbrev State.recordOf (s : State) (e : Raise) : FaultRecord := ⟨e.cause, e.info, s.pc⟩

theorem raise_inv {s : State} {e : Raise} (h : s.Inv) (he : (s.recordOf e).legalIn s = true) : (s.raise e).Inv := by
  obtain ⟨hmem, hflags, -⟩ := h
  refine ⟨hmem, hflags, fun f hf => ⟨rfl, ?_⟩⟩
  obtain rfl : s.recordOf e = f := by simpa using hf
  exact he

theorem legalIn_of_fetchInstr_error {s : State} {e : Raise} (h : fetchInstr s = .error e) :
    (s.recordOf e).legalIn s = true := by
  rcases fetchInstr_cases s with ⟨hp, hf⟩ | ⟨hp, hop, hf⟩ | ⟨_, i, hf, _⟩
  · obtain rfl : _ = e := by simpa [hf] using h
    simp [FaultRecord.legalIn, show 253 ≤ s.pc.toNat by omega]
  · obtain rfl : _ = e := by simpa [hf] using h
    simp [FaultRecord.legalIn, hp, hop]
  · simp [hf] at h

theorem legalIn_of_firstRaise {s : State} {i : Instr} {e : Raise} (hi : fetchInstr s = .ok i)
    (he : i.firstRaise s = some e) : (s.recordOf e).legalIn s = true := by
  obtain ⟨hp, -, hbytes⟩ := fetchInstr_ok hi
  rcases firstRaise_eq_some he with ⟨r, hr, h7, rfl⟩ | ⟨hover, rfl⟩
  · have hmem := hbytes (i.accessed_subset_operandBytes _ hr)
    simp only [List.mem_cons, List.not_mem_nil, or_false] at hmem
    rcases hmem with rfl | rfl <;> simp [FaultRecord.legalIn, hp, h7]
  · have hle := i.advanceBy_le_length s.equal
    have hlen := (length_bounds i).2
    simp [FaultRecord.legalIn, show 253 ≤ s.pc.toNat by omega,
      show s.pc.toNat + i.advanceBy s.equal = 256 by omega]

/-- Where the invariant holds, a running core's latch is clear (R70). -/
theorem fault_eq_none_of_running {s : State} (h : s.Inv) (hr : s.running = true) : s.fault = none := by
  obtain ⟨-, -, hlatch⟩ := h
  refine Option.eq_none_iff_forall_not_mem.2 fun f hf => ?_
  obtain ⟨hstopped, -⟩ := hlatch f hf
  simp [hr] at hstopped

/-- Settles O43: a stopped core keeps its state, a raise leaves a legal record, and an effect keeps each part. -/
theorem stepKeepsInvariant : Obligations.StepKeepsInvariant := by
  intro s t hinv hstep
  rcases step_next_cases hstep with ⟨-, rfl⟩ | ⟨-, e, hf, rfl⟩ | ⟨hr, i, hf, hexec⟩
  · exact hinv
  · exact raise_inv hinv (legalIn_of_fetchInstr_error hf)
  · rcases exec_next_cases hexec with ⟨-, rfl⟩ | ⟨e, he, rfl⟩
    · exact effect_inv hinv (fault_eq_none_of_running hinv hr) i
    · exact raise_inv hinv (legalIn_of_firstRaise hf he)

end Sys2Proof.Machine

/-! PROOF. What no instruction reads: the flags `L` and `G` and the output history (10_state.md R16, R21), and every
register that R12 does not list as read. -/

namespace Sys2Proof

open Machine

/-- The bytes an instruction appends to the output channel, its checks passed (10_state.md R21). -/
def Instr.emits (i : Instr) (s : State) : List Byte :=
  match i with
  | .prn r => [s.reg (operandReg r)]
  | _ => []

namespace Machine

theorem effect_out (i : Instr) (s : State) : (i.effect s).out = s.out ++ i.emits s := by
  cases i with
  | prn r => rfl
  | _ => exact (List.append_nil _).symm

/-! ### The unread state -/

/-- The state with other values in what no instruction reads. -/
def State.withUnread (s : State) (l g : Bool) (o : List Byte) : State := { s with less := l, greater := g, out := o }

theorem sameButUnread.eq_withUnread {s s' : State} (h : sameButUnread s s') :
    s' = s.withUnread s'.less s'.greater s'.out := by
  obtain ⟨x, pc, equal, less, greater, running, fault, mem, out⟩ := s
  obtain ⟨rfl, rfl, rfl, rfl, rfl, rfl⟩ := h
  rfl

theorem effect_withUnread (i : Instr) (s : State) (l g : Bool) (o : List Byte) :
    sameButUnread (i.effect s) (i.effect (s.withUnread l g o)) := by
  cases i <;> exact ⟨rfl, rfl, rfl, rfl, rfl, rfl⟩

theorem emits_withUnread (i : Instr) (s : State) (l g : Bool) (o : List Byte) :
    i.emits (s.withUnread l g o) = i.emits s := by
  cases i <;> rfl

/-- From two states that differ only in what is unread, two next states that do so again, after the same output. -/
def advanceAlike (s s' t t' : State) : Prop :=
  sameButUnread t t' ∧ ∃ d, t.out = s.out ++ d ∧ t'.out = s'.out ++ d

/-- No output on either side. -/
theorem advanceAlike_of_out_eq {s s' t t' : State} (h : sameButUnread t t') (ho : t.out = s.out)
    (ho' : t'.out = s'.out) : advanceAlike s s' t t' :=
  ⟨h, [], by rw [ho, List.append_nil], by rw [ho', List.append_nil]⟩

theorem advanceAlike.trans {s s' t t' u u' : State} (h : advanceAlike s s' t t') (h' : advanceAlike t t' u u') :
    advanceAlike s s' u u' := by
  obtain ⟨-, d, hd, hd'⟩ := h
  obtain ⟨hsame, e, he, he'⟩ := h'
  exact ⟨hsame, d ++ e, by rw [he, hd, List.append_assoc], by rw [he', hd', List.append_assoc]⟩

theorem exec_withUnread {i : Instr} {s t t' : State} {l g : Bool} {o : List Byte} (h : exec i s = .next t)
    (h' : exec i (s.withUnread l g o) = .next t') : advanceAlike s (s.withUnread l g o) t t' := by
  have hsame : i.firstRaise (s.withUnread l g o) = i.firstRaise s := rfl
  rw [exec_eq] at h h'
  rw [hsame] at h'
  injection h with h
  injection h' with h'
  subst h h'
  cases i.firstRaise s with
  | none =>
    exact ⟨effect_withUnread i s l g o, i.emits s, effect_out i s,
      (effect_out i _).trans (by rw [emits_withUnread])⟩
  | some e => exact advanceAlike_of_out_eq ⟨rfl, rfl, rfl, rfl, rfl, rfl⟩ rfl rfl

theorem step_withUnread {s t t' : State} {l g : Bool} {o : List Byte} (h : step s = .next t)
    (h' : step (s.withUnread l g o) = .next t') : advanceAlike s (s.withUnread l g o) t t' := by
  rcases step_next_cases h with ⟨hr, ht⟩ | ⟨hr, e, hf, rfl⟩ | ⟨hr, i, hf, hexec⟩
  · rw [step_of_stopped (s := s.withUnread l g o) hr] at h'
    injection h' with h'
    subst ht h'
    exact advanceAlike_of_out_eq ⟨rfl, rfl, rfl, rfl, rfl, rfl⟩ rfl rfl
  · rw [step_of_fetchInstr_error (s := s.withUnread l g o) hr hf] at h'
    injection h' with h'
    subst h'
    exact advanceAlike_of_out_eq ⟨rfl, rfl, rfl, rfl, rfl, rfl⟩ rfl rfl
  · rw [step_of_fetchInstr_ok (s := s.withUnread l g o) hr hf] at h'
    exact exec_withUnread hexec h'

/-- A run of at least one step is a step and the run of the rest. -/
theorem run_succ_next {k : Nat} {s t : State} (h : run (k + 1) s = .next t) :
    ∃ u, step s = .next u ∧ run k u = .next t := by
  cases hs : step s with
  | next u => exact ⟨u, rfl, (run_succ k hs).symm.trans h⟩
  | fault r => exact nomatch r
  | refused r => simp [run_refused k hs] at h

/-- Settles O46, by induction on the number of steps. -/
theorem unreadStateIsInvisible : Obligations.UnreadStateIsInvisible := by
  intro k
  induction k with
  | zero =>
    rintro s s' t t' hsame ⟨⟩ ⟨⟩
    exact advanceAlike_of_out_eq hsame rfl rfl
  | succ k ih =>
    intro s s' t t' hsame hrun hrun'
    obtain ⟨u, hstep, hrun⟩ := run_succ_next hrun
    obtain ⟨u', hstep', hrun'⟩ := run_succ_next hrun'
    rw [hsame.eq_withUnread] at hstep' ⊢
    have hfirst := step_withUnread hstep hstep'
    exact hfirst.trans (ih u u' t t' hfirst.1 hrun hrun')

/-! ### The registers that are not read -/

theorem State.setReg_setReg_same (s : State) (k : Fin 8) (v w : Byte) : (s.setReg k v).setReg k w = s.setReg k w := by
  simp [State.setReg]

theorem State.setReg_comm (s : State) {j k : Fin 8} (h : j ≠ k) (v w : Byte) :
    (s.setReg k v).setReg j w = (s.setReg j w).setReg k v := by
  simp only [State.setReg, State.mk.injEq, and_true]
  exact Vector.set_comm _ _ fun e => h (Fin.ext e.symm)

theorem State.sp_setReg (s : State) {k : Fin 8} (h : k ≠ 7) (v : Byte) : (s.setReg k v).sp = s.sp :=
  State.reg_setReg_ne s k 7 v h.symm

theorem State.decSp_setReg (s : State) {k : Fin 8} (h : k ≠ 7) (v : Byte) :
    (s.setReg k v).decSp = s.decSp.setReg k v := by
  rw [State.decSp, State.sp_setReg s h, State.setReg_comm s h.symm, State.decSp]

theorem State.incSp_setReg (s : State) {k : Fin 8} (h : k ≠ 7) (v : Byte) :
    (s.setReg k v).incSp = s.incSp.setReg k v := by
  rw [State.incSp, State.sp_setReg s h, State.setReg_comm s h.symm, State.incSp]

theorem State.pushByte_setReg (s : State) {k : Fin 8} (h : k ≠ 7) (v w : Byte) :
    (s.setReg k v).pushByte w = (s.pushByte w).setReg k v := by
  simp only [State.pushByte, State.decSp_setReg s h, State.sp_setReg _ h]
  rfl

end Machine

/-- The registers that an instruction reads, its checks passed: the column "Registers read" of R12. -/
def Instr.readRegs (i : Instr) (equal : Bool) : List (Fin 8) :=
  match i with
  | .hlt | .ldi _ _ => []
  | .prn r | .jmp r => [operandReg r]
  | .mul ra rb | .add ra rb | .cmp ra rb => [operandReg ra, operandReg rb]
  | .push r | .call r => [7, operandReg r]
  | .pop _ | .ret => [7]
  | .jeq r => if equal then [operandReg r] else []
  | .jne r => if !equal then [operandReg r] else []

namespace Machine

theorem target_setReg {i : Instr} {s : State} {k : Fin 8} (h : k ∉ i.readRegs s.equal) (v : Byte) :
    i.target (s.setReg k v) = i.target s := by
  have hreg : ∀ (u : State) (j : Fin 8), j ≠ k → (u.setReg k v).reg j = u.reg j :=
    fun u j hj => State.reg_setReg_ne u k j v hj
  cases i with
  | call r =>
    obtain ⟨h7, hr⟩ : k ≠ 7 ∧ k ≠ operandReg r := by simpa [Instr.readRegs] using h
    rw [Instr.target, State.decSp_setReg s h7, hreg _ _ hr.symm, Instr.target]
  | ret =>
    have h7 : k ≠ 7 := by simpa [Instr.readRegs] using h
    rw [Instr.target, State.sp_setReg s h7, State.setReg_mem, Instr.target]
  | jmp r =>
    have hr : k ≠ operandReg r := by simpa [Instr.readRegs] using h
    exact hreg s _ hr.symm
  | jeq r =>
    cases he : s.equal with
    | false => simp [Instr.target, he]
    | true =>
      have hr : k ≠ operandReg r := by simpa [Instr.readRegs, he] using h
      simp [Instr.target, he, hreg s _ hr.symm]
  | jne r =>
    cases he : s.equal with
    | false =>
      have hr : k ≠ operandReg r := by simpa [Instr.readRegs, he] using h
      simp [Instr.target, he, hreg s _ hr.symm]
    | true => simp [Instr.target, he]
  | _ => rfl

theorem alu_setReg (op : AluOp) (s : State) {a b k : Fin 8} (ha : k ≠ a) (hb : k ≠ b) (v : Byte) :
    alu op a b (s.setReg k v) = (alu op a b s).setReg k v := by
  have hra := State.reg_setReg_ne s k a v ha.symm
  have hrb := State.reg_setReg_ne s k b v hb.symm
  cases op with
  | add | mul =>
    simp only [alu, hra, hrb]
    exact State.setReg_comm s ha.symm v _
  | cmp =>
    simp only [alu, hra, hrb]
    rfl

/-- LDI and POP overwrite a register that they do not read; every other update leaves the unread register's value. -/
theorem update_setReg {i : Instr} {s : State} {k : Fin 8} (h : k ∉ i.readRegs s.equal) (v : Byte) :
    i.update (s.setReg k v) = i.update s ∨ i.update (s.setReg k v) = (i.update s).setReg k v := by
  cases i with
  | hlt => exact .inr rfl
  | ldi r imm =>
    by_cases hk : operandReg r = k
    · subst hk
      exact .inl (State.setReg_setReg_same s _ v imm)
    · exact .inr (State.setReg_comm s hk v imm)
  | prn r =>
    have hr : k ≠ operandReg r := by simpa [Instr.readRegs] using h
    right
    rw [Instr.update, State.reg_setReg_ne s k _ v hr.symm]
    rfl
  | mul ra rb | add ra rb | cmp ra rb =>
    obtain ⟨ha, hb⟩ : k ≠ operandReg ra ∧ k ≠ operandReg rb := by simpa [Instr.readRegs] using h
    right
    simp only [Instr.update, alu_setReg _ s ha hb]
  | push r =>
    obtain ⟨h7, hr⟩ : k ≠ 7 ∧ k ≠ operandReg r := by simpa [Instr.readRegs] using h
    right
    rw [Instr.update, State.pushByte_setReg s h7, State.decSp_setReg s h7,
      State.reg_setReg_ne _ k _ v hr.symm, Instr.update]
  | pop r =>
    have h7 : k ≠ 7 := by simpa [Instr.readRegs] using h
    simp only [Instr.update, State.sp_setReg s h7, State.setReg_mem]
    by_cases hk : operandReg r = k
    · subst hk
      exact .inl (by rw [State.setReg_setReg_same])
    · exact .inr (by rw [State.setReg_comm s hk, State.incSp_setReg _ h7])
  | call r =>
    obtain ⟨h7, -⟩ : k ≠ 7 ∧ k ≠ operandReg r := by simpa [Instr.readRegs] using h
    exact .inr (State.pushByte_setReg s h7 v _)
  | ret =>
    have h7 : k ≠ 7 := by simpa [Instr.readRegs] using h
    exact .inr (State.incSp_setReg s h7 v)
  | jmp r | jeq r | jne r => exact .inr rfl

theorem effect_setReg {i : Instr} {s : State} {k : Fin 8} (h : k ∉ i.readRegs s.equal) (v : Byte) :
    i.effect (s.setReg k v) = i.effect s ∨ i.effect (s.setReg k v) = (i.effect s).setReg k v := by
  simp only [Instr.effect, target_setReg h]
  exact (update_setReg h v).imp (fun e => by rw [e]) (fun e => by rw [e]; rfl)

/-- The checks of an instruction read no register. -/
theorem exec_setReg {i : Instr} {s t : State} {k : Fin 8} (h : i.firstRaise s = none → k ∉ i.readRegs s.equal)
    (v : Byte) (hexec : exec i s = .next t) :
    exec i (s.setReg k v) = .next t ∨ exec i (s.setReg k v) = .next (t.setReg k v) := by
  have hsame : i.firstRaise (s.setReg k v) = i.firstRaise s := rfl
  rw [exec_eq i (s.setReg k v), hsame]
  rcases exec_next_cases hexec with ⟨hnone, rfl⟩ | ⟨e, hsome, rfl⟩
  · rw [hnone]
    exact (effect_setReg (h hnone) v).imp (congrArg _) (congrArg _)
  · rw [hsome]
    exact .inr rfl

/-- Settles O31: once the checks have passed, operand bytes that do not name `k` resolve to other registers. -/
theorem onlyListedRegistersAreRead : Obligations.OnlyListedRegistersAreRead := by
  intro i s t k v hread hexec
  refine exec_setReg (fun hnone => ?_) v hexec
  obtain ⟨hok, -⟩ := firstRaise_eq_none.1 hnone
  cases i with
  | hlt | ldi r imm => exact List.not_mem_nil
  | prn r | jmp r =>
    have hr := operandReg_ne (hok r (by simp [Instr.accessed])) hread
    simpa [Instr.readRegs] using hr.symm
  | mul ra rb | add ra rb | cmp ra rb =>
    obtain ⟨hra, hrb⟩ := hread
    have ha := operandReg_ne (hok ra (by simp [Instr.accessed])) hra
    have hb := operandReg_ne (hok rb (by simp [Instr.accessed])) hrb
    simpa [Instr.readRegs] using ⟨ha.symm, hb.symm⟩
  | push r | call r =>
    obtain ⟨h7, hread⟩ := hread
    have hr := operandReg_ne (hok r (by simp [Instr.accessed])) hread
    simpa [Instr.readRegs] using ⟨h7, hr.symm⟩
  | pop r | ret => simpa [Instr.readRegs] using hread
  | jeq r =>
    cases he : s.equal with
    | false => simp [Instr.readRegs]
    | true =>
      have hr := operandReg_ne (hok r (by simp [Instr.accessed, he])) (hread he)
      simpa [Instr.readRegs] using hr.symm
  | jne r =>
    cases he : s.equal with
    | false =>
      have hr := operandReg_ne (hok r (by simp [Instr.accessed, he])) (hread he)
      simpa [Instr.readRegs] using hr.symm
    | true => simp [Instr.readRegs]

end Machine
end Sys2Proof

/-! PROOF. What an instruction leaves unchanged, field by field (10_state.md R12, R14, R16 to R18, R21). -/

namespace Sys2Proof.Machine

/-! ### Registers -/

theorem eq_of_reg_setReg_ne {s : State} {j k : Fin 8} {v : Byte} (h : (s.setReg j v).reg k ≠ s.reg k) : k = j :=
  Decidable.by_contra fun hkj => h (State.reg_setReg_ne s j k v hkj)

/-- Settles O30: each update is made of register writes that its row lists; a fault entry writes none. -/
theorem onlyListedRegistersChange : Obligations.OnlyListedRegistersChange := by
  intro i s t k hexec hne
  rcases exec_next_cases hexec with ⟨hnone, rfl⟩ | ⟨e, -, rfl⟩
  · obtain ⟨hok, -⟩ := firstRaise_eq_none.1 hnone
    have hnamed : ∀ r ∈ i.accessed s.equal, k = operandReg r → r.toNat = k.val :=
      fun r hr hk => hk ▸ toNat_eq_operandReg (hok r hr)
    cases i with
    | hlt | prn r | cmp ra rb | jmp r | jeq r | jne r => exact hne rfl
    | ldi r _ | mul r _ | add r _ => exact hnamed r (by simp [Instr.accessed]) (eq_of_reg_setReg_ne hne)
    | push r | call r | ret => exact eq_of_reg_setReg_ne hne
    | pop r =>
      by_cases h7 : k = 7
      · exact .inr h7
      · have hk : (s.setReg (operandReg r) (s.mem.read s.sp.toNat)).reg k ≠ s.reg k := fun h =>
          hne ((State.reg_incSp _ k).trans ((if_neg h7).trans h))
        exact .inl (hnamed r (by simp [Instr.accessed]) (eq_of_reg_setReg_ne hk))
  · exact absurd rfl hne

/-! ### Flags -/

theorem exec_flags {i : Instr} {s t : State} (h : exec i s = .next t) (hi : ∀ ra rb, i ≠ .cmp ra rb) :
    t.equal = s.equal ∧ t.less = s.less ∧ t.greater = s.greater := by
  rcases exec_next_cases h with ⟨-, rfl⟩ | ⟨e, -, rfl⟩
  · exact effect_flags hi s
  · exact ⟨rfl, rfl, rfl⟩

/-- Settles O32: a step whose opcode byte is not that of CMP fetches another instruction, if any. -/
theorem onlyCmpChangesFlags : Obligations.OnlyCmpChangesFlags := by
  refine ⟨fun i s t h hi => exec_flags h hi, fun s t hstep hop => ?_⟩
  rcases step_next_cases hstep with ⟨-, rfl⟩ | ⟨-, e, -, rfl⟩ | ⟨-, i, hf, hexec⟩
  · exact ⟨rfl, rfl, rfl⟩
  · exact ⟨rfl, rfl, rfl⟩
  · obtain ⟨-, hi, -⟩ := fetchInstr_ok hf
    refine exec_flags hexec ?_
    rintro ra rb rfl
    exact hop hi

/-! ### The output channel -/

/-- Settles O34: the effect of PRN is the only one that writes the channel, and a fault entry leaves it. -/
theorem onlyPrnOutputs : Obligations.OnlyPrnOutputs := by
  intro i s t hexec
  rcases exec_next_cases hexec with ⟨hnone, rfl⟩ | ⟨e, -, rfl⟩
  · obtain ⟨hok, -⟩ := firstRaise_eq_none.1 hnone
    cases i with
    | prn r => exact .inr ⟨r, operandReg r, rfl, toNat_eq_operandReg (hok r (by simp [Instr.accessed])), rfl⟩
    | _ => exact .inl rfl
  · exact .inl rfl

/-! ### The running flag and the latch -/

theorem effect_running (i : Instr) (s : State) :
    (i.effect s).running = s.running ∨ (i = .hlt ∧ (i.effect s).running = false) := by
  cases i with
  | hlt => exact .inr ⟨rfl, rfl⟩
  | _ => exact .inl rfl

/-- Settles O36: an effect keeps the latch and, but for HLT, `running`; a raise is a fault entry. -/
theorem onlyHltAndFaultsStop : Obligations.OnlyHltAndFaultsStop := by
  intro i s t hexec
  rcases exec_next_cases hexec with ⟨-, rfl⟩ | ⟨e, -, rfl⟩
  · rcases effect_running i s with hrun | ⟨hi, hrun⟩
    · exact .inl ⟨hrun, effect_fault i s⟩
    · exact .inr (.inl ⟨hi, hrun, effect_fault i s⟩)
  · exact .inr (.inr ⟨e.cause, e.info, rfl⟩)

/-! ### The program counter -/

@[simp] theorem effect_pc (i : Instr) (s : State) : (i.effect s).pc = i.target s := rfl

theorem toNat_ofNat_of_le {n : Nat} (h : n ≤ 255) : (BitVec.ofNat 8 n).toNat = n := by
  rw [BitVec.toNat_ofNat, Nat.mod_eq_of_lt (by omega)]

/-- Settles O37: the successor address passed its check, so it does not wrap; a register operand passed its own. -/
theorem nextProgramCounter : Obligations.NextProgramCounter := by
  intro i s t _ hexec
  rcases exec_next_cases hexec with ⟨hnone, rfl⟩ | ⟨e, -, rfl⟩
  · refine .inr ⟨effect_fault i s, ?_⟩
    obtain ⟨hok, hfits⟩ := firstRaise_eq_none.1 hnone
    cases i with
    | hlt | prn _ | push _ | pop _ | ldi _ _ | add _ _ | mul _ _ | cmp _ _ => exact toNat_ofNat_of_le hfits
    | call r | jmp r => exact ⟨operandReg r, toNat_eq_operandReg (hok r (by simp [Instr.accessed])), rfl⟩
    | ret => rfl
    | jeq r =>
      cases he : s.equal with
      | false =>
        simp only [Instr.advanceBy, he] at hfits
        simp only [effect_pc, Instr.target, he]
        exact toNat_ofNat_of_le hfits
      | true =>
        have hr := hok r (by simp [Instr.accessed, he])
        simpa [Instr.target, he] using ⟨operandReg r, toNat_eq_operandReg hr, rfl⟩
    | jne r =>
      cases he : s.equal with
      | false =>
        have hr := hok r (by simp [Instr.accessed, he])
        simpa [Instr.target, he] using ⟨operandReg r, toNat_eq_operandReg hr, rfl⟩
      | true =>
        simp only [Instr.advanceBy, he] at hfits
        simp only [effect_pc, Instr.target, he]
        exact toNat_ofNat_of_le hfits
  · exact .inl ⟨e.cause, e.info, rfl⟩

end Sys2Proof.Machine

/-! PROOF. Reset, load, and the canonical form of memory (10_state.md R19, R26 to R29). -/

namespace Sys2Proof.Machine

/-! ### Canonical memories are determined by their reads -/

@[simp] theorem Memory.read_nil (a : Nat) : Memory.read [] a = Config.memFill := rfl

@[simp] theorem Memory.read_cons_same (m : Memory) (a : Nat) (v : Byte) : Memory.read ((a, v) :: m) a = v := by
  simp [Memory.read]

theorem Memory.read_cons_ne (m : Memory) {a b : Nat} (v : Byte) (h : b ≠ a) :
    Memory.read ((a, v) :: m) b = m.read b := by
  simp [Memory.read, h]

/-- The first listed address of a canonical memory is not below an address at which the memory is not filled. -/
theorem Memory.le_of_read_ne {m : Memory} {a b : Nat} {v : Byte} {lo : Nat}
    (h : Memory.wfFrom lo ((a, v) :: m) = true) (hb : Memory.read ((a, v) :: m) b ≠ Config.memFill) : a ≤ b := by
  obtain ⟨-, ha, hv, hm⟩ := (Memory.wfFrom_cons ..).1 h
  by_contra hlt
  exact hb (Memory.read_below ((Memory.wfFrom_cons ..).2 ⟨Nat.le_refl a, ha, hv, hm⟩) (Nat.not_le.1 hlt))

/-- The tails of two canonical memories with one head read alike where the memories do. -/
theorem Memory.read_tail_eq {m m' : Memory} {a b : Nat} {v : Byte} (hm : Memory.wfFrom (a + 1) m = true)
    (hm' : Memory.wfFrom (a + 1) m' = true) (h : Memory.read ((a, v) :: m) b = Memory.read ((a, v) :: m') b) :
    m.read b = m'.read b := by
  by_cases hb : b = a
  · subst hb
    rw [Memory.read_below hm (Nat.lt_succ_self b), Memory.read_below hm' (Nat.lt_succ_self b)]
  · rwa [Memory.read_cons_ne m v hb, Memory.read_cons_ne m' v hb] at h

theorem Memory.eq_of_read_eq {m m' : Memory} {lo lo' : Nat} (hm : Memory.wfFrom lo m = true)
    (hm' : Memory.wfFrom lo' m' = true) (h : ∀ a, m.read a = m'.read a) : m = m' := by
  induction m generalizing m' lo lo' with
  | nil =>
    cases m' with
    | nil => rfl
    | cons c rest =>
      obtain ⟨b, w⟩ := c
      obtain ⟨-, -, hw, -⟩ := (Memory.wfFrom_cons ..).1 hm'
      exact absurd (by simpa using (h b).symm) hw
  | cons c rest ih =>
    obtain ⟨a, v⟩ := c
    obtain ⟨-, -, hv, hrest⟩ := (Memory.wfFrom_cons ..).1 hm
    cases m' with
    | nil => exact absurd (by simpa using h a) hv
    | cons c' rest' =>
      obtain ⟨b, w⟩ := c'
      obtain ⟨-, -, hw, hrest'⟩ := (Memory.wfFrom_cons ..).1 hm'
      have hab : a ≤ b := Memory.le_of_read_ne hm (by simpa [h b] using hw)
      have hba : b ≤ a := Memory.le_of_read_ne hm' (by simpa [← h a] using hv)
      obtain rfl : a = b := Nat.le_antisymm hab hba
      obtain rfl : v = w := by simpa using h a
      rw [ih hrest hrest' fun c => Memory.read_tail_eq hrest hrest' (h c)]

/-- Settles O47, by induction on the two lists of cells: their heads agree, and so do their tails' reads. -/
theorem equalReadsEqualMemories : Obligations.EqualReadsEqualMemories :=
  fun _ _ hm hm' h => Memory.eq_of_read_eq hm hm' h

/-! ### Loading an image -/

/-- Loading leaves the cells below and above the image alone. -/
theorem Memory.read_loadFrom_outside (m : Memory) {a b : Nat} {image : List Nat}
    (h : b < a ∨ a + image.length ≤ b) : (m.loadFrom a image).read b = m.read b := by
  induction image generalizing m a with
  | nil => rfl
  | cons v rest ih =>
    rw [List.length_cons] at h
    rw [Memory.loadFrom, ih _ (by omega), Memory.read_write_ne m a b _ (by omega)]

/-- Loading puts image byte `i` into the cell `i` above the first. -/
theorem Memory.read_loadFrom_inside {m : Memory} (hm : m.wf = true) {a : Nat} {image : List Nat}
    (hfit : a + image.length ≤ 256) {i : Nat} (hi : i < image.length) :
    (m.loadFrom a image).read (a + i) = BitVec.ofNat 8 image[i] := by
  induction image generalizing m a i with
  | nil => exact absurd hi (Nat.not_lt_zero i)
  | cons v rest ih =>
    rw [List.length_cons] at hfit hi
    rw [Memory.loadFrom]
    cases i with
    | zero => exact (Memory.read_loadFrom_outside _ (by omega)).trans (Memory.read_write_same hm a _)
    | succ j =>
      have hj := ih (Memory.write_wf hm (show a < 256 by omega) (BitVec.ofNat 8 v)) (a := a + 1) (i := j)
        (by omega) (by omega)
      rwa [show a + (j + 1) = a + 1 + j by omega, List.getElem_cons_succ]

theorem start_of_fits (spReset : Byte) {image : List Nat} (hlen : image.length ≤ 256) (hbytes : ∀ b ∈ image, b < 256) :
    start spReset image =
      some { State.resetWith spReset with mem := Memory.loadFrom [] Config.loadBase image } := by
  have hwf : imageWellFormed image = true := by simpa [imageWellFormed, hlen] using hbytes
  rw [start, if_pos hwf]

/-- Settles O14: loading into the empty memory writes the cells of the image and no other. -/
theorem loadPlacesImage : Obligations.LoadPlacesImage := by
  intro spReset image hlen hbytes
  have hfit : Config.loadBase + image.length ≤ 256 := by rwa [Config.loadBase, Nat.zero_add]
  refine ⟨_, start_of_fits spReset hlen hbytes, Memory.loadFrom_wf rfl hfit, fun i hi => ?_, fun i hi => ?_⟩
  · have hread := Memory.read_loadFrom_inside (m := []) rfl hfit hi
    rw [Config.loadBase, Nat.zero_add] at hread
    have hbyte : image[i] < 256 := hbytes _ (List.getElem_mem hi)
    rw [hread, toNat_ofNat_of_le (by omega)]
  · exact Memory.read_loadFrom_outside [] (.inr (by rwa [Config.loadBase, Nat.zero_add]))

/-! ### Reset -/

theorem reg_resetWith (spReset : Byte) (k : Fin 8) :
    (State.resetWith spReset).reg k = if k = 7 then spReset else Config.resetGpr := by
  by_cases h : k = 7
  · subst h
    rfl
  · have hval : 7 ≠ k.val := fun e => h (Fin.ext e.symm)
    simp [State.reg, State.resetWith, Vector.getElem_set_ne, h, hval]

/-- Settles O13: the register file is the fill value with `SP_RESET` in `x[7]`, and memory lists no cell. -/
theorem resetValues : Obligations.ResetValues := by
  intro spReset old
  have hreg := reg_resetWith spReset
  refine ⟨rfl, fun k hk => ?_, hreg 7, rfl, rfl, rfl, rfl, rfl, rfl, fun _ => rfl⟩
  exact (hreg k).trans (if_neg hk)

end Sys2Proof.Machine

/-! PROOF. What a push stores and what it leaves (20_memory.md R32), and that the next fetch sees it (R38, R40). -/

namespace Sys2Proof

theorem operandReg_eq {r : Byte} {k : Fin 8} (h : r.toNat = k.val) : operandReg r = k :=
  Fin.ext ((toNat_eq_operandReg (by omega)).symm.trans h)

namespace Machine

/-! ### Reading memory after a push -/

theorem State.read_pushByte_same {s : State} (h : s.mem.wf = true) (v : Byte) :
    (s.pushByte v).mem.read s.decSp.sp.toNat = v :=
  Memory.read_write_same h _ v

theorem State.read_pushByte_ne (s : State) (v : Byte) {c : Nat} (h : c ≠ s.decSp.sp.toNat) :
    (s.pushByte v).mem.read c = s.mem.read c :=
  Memory.read_write_ne s.mem _ c v h

/-- Settles O33: an effect writes memory by the push of PUSH and CALL alone, and a fault entry leaves it. -/
theorem onlyPushAndCallStore : Obligations.OnlyPushAndCallStore := by
  intro i s t hexec
  rcases exec_next_cases hexec with ⟨-, rfl⟩ | ⟨e, -, rfl⟩
  · cases i with
    | push r | call r => exact fun c hc => s.read_pushByte_ne _ hc
    | _ => rfl
  · cases i with
    | push r | call r => exact fun _ _ => rfl
    | _ => rfl

/-! ### Fetching at an address that fits, and running what was fetched -/

theorem fetch_of_le {s : State} (h : s.pc.toNat ≤ 253) :
    fetch s = .ok (s.mem.read s.pc.toNat, s.mem.read (s.pc.toNat + 1), s.mem.read (s.pc.toNat + 2)) := by
  rcases fetch_cases s with ⟨-, hf⟩ | ⟨hp, -⟩
  · exact hf
  · omega

theorem fetchInstr_of_decode {s : State} {i : Instr} (hp : s.pc.toNat ≤ 253)
    (h : decode (s.mem.read s.pc.toNat) (s.mem.read (s.pc.toNat + 1)) (s.mem.read (s.pc.toNat + 2)) = .ok i) :
    fetchInstr s = .ok i := by
  simp only [fetchInstr, fetch_of_le hp, except_ok_bind, h]

theorem exec_of_firstRaise_eq_none {i : Instr} {s : State} (h : i.firstRaise s = none) :
    exec i s = .next (i.effect s) := by
  rw [exec_eq, h, Option.elim_none]

/-- A running core at a PUSH of register `k` whose successor address fits pushes the register and moves on. -/
theorem step_push {s : State} {k : Fin 8} (hrun : s.running = true) (hp : s.pc.toNat ≤ 253)
    (hop : s.mem.read s.pc.toNat = 0x45) (hk : (s.mem.read (s.pc.toNat + 1)).toNat = k.val) :
    step s = .next ((s.pushByte (s.decSp.reg k)).setPc (BitVec.ofNat 8 (s.pc.toNat + 2))) := by
  have hfetch : fetchInstr s = .ok (.push (s.mem.read (s.pc.toNat + 1))) :=
    fetchInstr_of_decode hp (by rw [hop]; rfl)
  have hnone : (Instr.push (s.mem.read (s.pc.toNat + 1))).firstRaise s = none :=
    firstRaise_eq_none.2 ⟨by simp [Instr.accessed, hk, Nat.le_of_lt_succ k.isLt],
      show s.pc.toNat + 2 ≤ 255 by omega⟩
  rw [step_of_fetchInstr_ok hrun hfetch, exec_of_firstRaise_eq_none hnone, Instr.effect, Instr.update, operandReg_eq hk]
  rfl

/-- Settles O42: the step is a push into the cell that is the new `pc`, and the two cells above it are other cells. -/
theorem storeIsSeenByNextFetch : Obligations.StoreIsSeenByNextFetch := by
  intro s k hrun hwf hp hop hk hsp
  have htop : s.decSp.sp.toNat = s.pc.toNat + 2 := by rw [State.sp_decSp, hsp]
  have hpc : (BitVec.ofNat 8 (s.pc.toNat + 2)).toNat = s.pc.toNat + 2 := toNat_ofNat_of_le (by omega)
  have hstored := State.read_pushByte_same hwf (s.decSp.reg k)
  rw [htop, State.reg_decSp] at hstored
  refine ⟨_, step_push hrun (by omega) hop hk, hpc, ?_⟩
  rw [fetch_of_le (by rw [State.setPc_pc, hpc]; omega), State.setPc_pc, State.setPc_mem, hpc, State.reg_decSp,
    hstored, State.read_pushByte_ne s _ (by omega), State.read_pushByte_ne s _ (by omega)]

end Machine
end Sys2Proof

/-! PROOF. The decoder and the encoder are inverse, the opcode map is closed (30_encoding.md R50 to R58), and a table word
placed at `pc` is what the next step runs (R57, last paragraph). -/

namespace Sys2Proof

/-! ### Decoding three bytes -/

theorem operandBytes_length (i : Instr) : i.operandBytes.length = i.length - 1 := by cases i <;> rfl

/-- The opcode byte followed by the operand bytes decodes to the instruction, whatever the bytes that its format ignores. -/
theorem decode_opcode {i : Instr} {op1 op2 : Byte} (h : [op1, op2].take (i.length - 1) = i.operandBytes) :
    decode i.opcode op1 op2 = .ok i := by
  cases i with
  | hlt | ret => rfl
  | prn r | push r | pop r | call r | jmp r | jeq r | jne r =>
    obtain rfl : op1 = r := List.head_eq_of_cons_eq h
    rfl
  | ldi r b | mul r b | add r b | cmp r b =>
    obtain ⟨rfl, htail⟩ := List.cons.inj h
    obtain rfl : op2 = b := List.head_eq_of_cons_eq htail
    rfl

theorem decode_eq_ok_iff {ir op1 op2 : Byte} {i : Instr} :
    decode ir op1 op2 = .ok i ↔ ir = i.opcode ∧ [op1, op2].take (i.length - 1) = i.operandBytes := by
  refine ⟨decode_ok, ?_⟩
  rintro ⟨rfl, h⟩
  exact decode_opcode h

theorem decode_of_not_mem {ir : Byte} (h : ir ∉ opcodeBytes) (op1 op2 : Byte) :
    decode ir op1 op2 = .error (.illegalOpcode ir) := by
  cases hd : decode ir op1 op2 with
  | ok i =>
    obtain ⟨rfl, -⟩ := decode_ok hd
    exact absurd (opcode_mem i) h
  | error e => rw [(decode_error hd).1]

/-- The numbers below 256 whose byte is an opcode are the 13 opcodes, each once. -/
theorem length_filter_opcode :
    ((List.range 256).filter fun n => decide (BitVec.ofNat 8 n ∈ opcodeBytes)).length = 13 := by
  have hperm : ((List.range 256).filter fun n => decide (BitVec.ofNat 8 n ∈ opcodeBytes)).Perm
      (opcodeBytes.map BitVec.toNat) := by
    refine (List.perm_ext_iff_of_nodup (List.nodup_range.filter _) (by decide)).2 fun n => ?_
    simp only [List.mem_filter, List.mem_range, decide_eq_true_eq, List.mem_map]
    constructor
    · rintro ⟨hlt, hmem⟩
      exact ⟨_, hmem, Machine.toNat_ofNat_of_le (by omega)⟩
    · rintro ⟨b, hmem, rfl⟩
      exact ⟨b.isLt, by rwa [BitVec.ofNat_toNat, BitVec.setWidth_eq]⟩
  exact hperm.length_eq

/-- The other 243 are refused. -/
theorem length_filter_not_opcode :
    ((List.range 256).filter fun n => !decide (BitVec.ofNat 8 n ∈ opcodeBytes)).length = 243 := by
  have hsplit := List.length_eq_length_filter_add (l := List.range 256)
    (fun n => decide (BitVec.ofNat 8 n ∈ opcodeBytes))
  rw [List.length_range, length_filter_opcode] at hsplit
  omega

/-- Settles O2: each row is an equation of the decoder, and the bytes without a row are refused and counted. -/
theorem opcodeMapIsClosed : Obligations.OpcodeMapIsClosed := by
  refine ⟨fun _ _ => ?_, fun _ op1 op2 h => decode_of_not_mem h op1 op2, ?_⟩
  · exact ⟨rfl, rfl, rfl, rfl, rfl, rfl, rfl, rfl, rfl, rfl, rfl, rfl, rfl⟩
  · refine (congrArg List.length (List.filter_congr fun n _ => ?_)).trans length_filter_not_opcode
    cases hd : decode (BitVec.ofNat 8 n) 0 0 with
    | ok i =>
      obtain ⟨hop, -⟩ := decode_ok hd
      simp [hop, opcode_mem]
    | error e =>
      obtain ⟨-, hop⟩ := decode_error hd
      simp [hop]

/-- Settles O3: each word is an equation of the decoder. -/
theorem specWordsDecode : Obligations.SpecWordsDecode :=
  ⟨rfl, rfl, rfl, rfl, rfl, rfl, rfl, rfl, rfl⟩

/-! ### Decoding a byte list -/

/-- The decoder's two operand bytes, zeros past the end of the list, are the head of a list that is long enough. -/
theorem take_pair_getD {bs : List Byte} {n : Nat} (hn : n ≤ 2) (h : n ≤ bs.length) :
    [bs.getD 0 0, bs.getD 1 0].take n = bs.take n := by
  match n, bs with
  | 0, _ => rfl
  | 1, _ :: _ => rfl
  | 2, _ :: _ :: _ => rfl

theorem decodeBytes_cons_eq_ok_iff {ir : Byte} {bs rest : List Byte} {i : Instr} :
    decodeBytes (ir :: bs) = .ok (i, rest) ↔
      decode ir (bs.getD 0 0) (bs.getD 1 0) = .ok i ∧ i.length - 1 ≤ bs.length ∧ bs.drop (i.length - 1) = rest := by
  rw [decodeBytes]
  cases decode ir (bs.getD 0 0) (bs.getD 1 0) with
  | error e => simp
  | ok j =>
    by_cases hshort : bs.length + 1 < j.length
    · have hlong : ¬ j.length - 1 ≤ bs.length := by omega
      simp only [hshort, if_true, reduceCtorEq, Except.ok.injEq, false_iff, not_and]
      rintro rfl hle
      exact absurd hle hlong
    · have hle : j.length - 1 ≤ bs.length := by omega
      simp only [hshort, if_false, Except.ok.injEq, Prod.mk.injEq]
      refine and_congr_right ?_
      rintro rfl
      exact (and_iff_right hle).symm

/-- A list begins with another exactly when it is long enough and splits there. -/
theorem eq_append_iff_take_drop {bs front rest : List Byte} :
    bs = front ++ rest ↔
      bs.take front.length = front ∧ front.length ≤ bs.length ∧ bs.drop front.length = rest := by
  constructor
  · rintro rfl
    simp
  · rintro ⟨htake, -, hdrop⟩
    rw [← List.take_append_drop front.length bs, htake, hdrop]

/-- Settles O1: the operand bytes that the decoder looks at are the list's own wherever it is long enough. -/
theorem decodeInvertsEncode : Obligations.DecodeInvertsEncode := by
  intro bs i rest
  cases bs with
  | nil => simp [decodeBytes, encode]
  | cons ir bs =>
    have hn : i.length - 1 ≤ 2 := by have := (length_bounds i).2; omega
    rw [decodeBytes_cons_eq_ok_iff, decode_eq_ok_iff, encode, List.cons_append, List.cons.injEq,
      eq_append_iff_take_drop, operandBytes_length, and_assoc]
    refine and_congr_right fun _ => and_congr_left fun ⟨hle, _⟩ => ?_
    rw [take_pair_getD hn hle]

/-! ### A table word at `pc` -/

namespace Machine

/-- Where all three addresses exist, placing the bytes is three writes. -/
theorem State.withFetchBytes_mem {s : State} (hp : s.pc.toNat ≤ 253) (bs : Byte × Byte × Byte) :
    (s.withFetchBytes bs).mem =
      ((s.mem.write s.pc.toNat bs.1).write (s.pc.toNat + 1) bs.2.1).write (s.pc.toNat + 2) bs.2.2 := by
  simp only [State.withFetchBytes, show s.pc.toNat < 256 by omega, show s.pc.toNat + 1 < 256 by omega,
    show s.pc.toNat + 2 < 256 by omega, if_true]

@[simp] theorem State.withFetchBytes_pc (s : State) (bs : Byte × Byte × Byte) : (s.withFetchBytes bs).pc = s.pc := rfl

@[simp] theorem State.withFetchBytes_running (s : State) (bs : Byte × Byte × Byte) :
    (s.withFetchBytes bs).running = s.running := rfl

theorem State.withFetchBytes_mem_wf {s : State} (hp : s.pc.toNat ≤ 253) (hwf : s.mem.wf = true)
    (bs : Byte × Byte × Byte) : (s.withFetchBytes bs).mem.wf = true := by
  rw [State.withFetchBytes_mem hp]
  exact Memory.write_wf (Memory.write_wf (Memory.write_wf hwf (by omega) _) (by omega) _) (by omega) _

/-- The fetch reads the placed bytes back: each is the last write to its own cell. -/
theorem fetch_withFetchBytes {s : State} (hp : s.pc.toNat ≤ 253) (hwf : s.mem.wf = true) (bs : Byte × Byte × Byte) :
    fetch (s.withFetchBytes bs) = .ok bs := by
  have hwf1 := Memory.write_wf hwf (show s.pc.toNat < 256 by omega) bs.1
  have hwf2 := Memory.write_wf hwf1 (show s.pc.toNat + 1 < 256 by omega) bs.2.1
  rw [fetch_of_le (by simpa using hp), State.withFetchBytes_mem hp, State.withFetchBytes_pc,
    Memory.read_write_same hwf2,
    Memory.read_write_ne _ _ _ _ (show s.pc.toNat + 1 ≠ s.pc.toNat + 2 by omega), Memory.read_write_same hwf1,
    Memory.read_write_ne _ _ _ _ (show s.pc.toNat ≠ s.pc.toNat + 2 by omega),
    Memory.read_write_ne _ _ _ _ (show s.pc.toNat ≠ s.pc.toNat + 1 by omega), Memory.read_write_same hwf]

theorem decodeTableWord_eq_some {nbits w : Nat} {i : Instr} (h : decodeTableWord nbits w = some i) :
    decode (tableWordFetch nbits w).1 (tableWordFetch nbits w).2.1 (tableWordFetch nbits w).2.2 = .ok i := by
  rw [decodeTableWord] at h
  cases hd : decode (tableWordFetch nbits w).1 (tableWordFetch nbits w).2.1 (tableWordFetch nbits w).2.2 with
  | error e => simp [hd, Except.toOption] at h
  | ok j => simpa [hd, Except.toOption] using h

/-- Settles O4: the fetch meets the placed bytes, and they decode to the instruction. -/
theorem placedTableWordRuns : Obligations.PlacedTableWordRuns := by
  intro s nbits w i hrun hp hwf hdecode
  refine ⟨step_of_fetchInstr_ok hrun ?_, State.withFetchBytes_mem_wf hp hwf _⟩
  simp only [fetchInstr, State.withFetchWord, fetch_withFetchBytes hp hwf, except_ok_bind,
    decodeTableWord_eq_some hdecode]

end Machine
end Sys2Proof

/-! PROOF. Fetch, decode and dispatch of one step (40_fetch_decode_dispatch.md sections 1 to 4): what the step of a running
core is at every `pc` and opcode byte, that a stopped core does nothing, and what makes a running core HALTED. -/

namespace Sys2Proof

/-! ### Decoding the encoding's own bytes -/

theorem opcode_eq_hlt_iff {i : Instr} : i.opcode = 0x01 ↔ i = .hlt := by
  cases i with
  | hlt => exact ⟨fun _ => rfl, fun _ => rfl⟩
  | _ => simp [Instr.opcode]

/-- Bytes that agree with the encoding as far as it reaches decode to the instruction (30_encoding.md R50 to R57). -/
theorem decode_of_encode {i : Instr} {bytes : Nat → Byte}
    (h : ∀ (k : Nat) (hk : k < (encode i).length), bytes k = (encode i)[k]) :
    decode (bytes 0) (bytes 1) (bytes 2) = .ok i := by
  have hop : bytes 0 = i.opcode := h 0 (Nat.zero_lt_succ _)
  have hoperand : ∀ (j : Nat) (hj : j < i.operandBytes.length), bytes (j + 1) = i.operandBytes[j] :=
    fun j hj => h (j + 1) (Nat.succ_lt_succ hj)
  rw [hop]
  refine decode_opcode (List.ext_getElem ?_ fun j hj hj' => ?_)
  · have hlen := (length_bounds i).2
    rw [List.length_take, operandBytes_length]
    exact Nat.min_eq_left (show i.length - 1 ≤ 2 by omega)
  · rw [List.getElem_take, ← hoperand j hj']
    match j, (hj.trans_le (List.length_take_le' _ _) : j < 2) with
    | 0, _ => rfl
    | 1, _ => rfl

namespace Machine

/-! ### The step of a running core, by `pc` and by the fetched bytes -/

theorem step_of_pc_gt {s : State} (hrun : s.running = true) (hp : 253 < s.pc.toNat) :
    step s = .next (faultedState s .addressFault 256) := by
  rcases fetchInstr_cases s with ⟨-, hf⟩ | ⟨hle, -⟩ | ⟨hle, -⟩
  · exact step_of_fetchInstr_error hrun hf
  · omega
  · omega

theorem step_of_decode {s : State} {i : Instr} (hrun : s.running = true) (hp : s.pc.toNat ≤ 253)
    (h : decode (s.mem.read s.pc.toNat) (s.mem.read (s.pc.toNat + 1)) (s.mem.read (s.pc.toNat + 2)) = .ok i) :
    step s = exec i s :=
  step_of_fetchInstr_ok hrun (fetchInstr_of_decode hp h)

theorem step_of_not_opcode {s : State} (hrun : s.running = true) (hp : s.pc.toNat ≤ 253)
    (hir : s.mem.read s.pc.toNat ∉ opcodeBytes) :
    step s = .next (faultedState s .illegalOpcode (s.mem.read s.pc.toNat).toNat) := by
  rcases fetchInstr_cases s with ⟨hgt, -⟩ | ⟨-, -, hf⟩ | ⟨-, i, hf, -⟩
  · omega
  · exact step_of_fetchInstr_error hrun hf
  · obtain ⟨-, hop, -⟩ := fetchInstr_ok hf
    exact absurd (opcode_mem i) (hop ▸ hir)

/-- Settles O6: a fetch fault, 13 rows that are each an equation of the decoder, and the bytes without a row. -/
theorem stepDispatchesOnOpcode : Obligations.StepDispatchesOnOpcode := by
  refine ⟨fun _ => step_of_pc_gt, fun s hrun hp => ?_⟩
  have row {b : Byte} {i : Instr} (hir : s.mem.read s.pc.toNat = b)
      (hd : decode b (s.mem.read (s.pc.toNat + 1)) (s.mem.read (s.pc.toNat + 2)) = .ok i) : step s = exec i s :=
    step_of_decode hrun hp (hir ▸ hd)
  exact ⟨(row · rfl), (row · rfl), (row · rfl), (row · rfl), (row · rfl), (row · rfl), (row · rfl), (row · rfl),
    (row · rfl), (row · rfl), (row · rfl), (row · rfl), (row · rfl), step_of_not_opcode hrun hp⟩

/-- Settles O5: the encoding's bytes from `pc` on are a case of bytes that decode. -/
theorem stepRunsDecodedInstruction : Obligations.StepRunsDecodedInstruction :=
  ⟨fun _ _ => step_of_decode, fun s _ hrun hp hbytes =>
    step_of_decode hrun hp (decode_of_encode (bytes := fun k => s.mem.read (s.pc.toNat + k)) hbytes)⟩

/-- Settles O7: above 253 the fetch meets the address 256. -/
theorem fetchFaultsAtTopOfMemory : Obligations.FetchFaultsAtTopOfMemory :=
  fun _ => step_of_pc_gt

/-! ### A stopped core -/

theorem run_of_stopped {s : State} (h : s.running = false) (k : Nat) : run k s = .next s := by
  induction k with
  | zero => rfl
  | succ k ih => rw [run_succ k (step_of_stopped h), ih]

/-- Settles O10: the step answers the same state, and so, by induction on their number, do further steps. -/
theorem stoppedCoreDoesNothing : Obligations.StoppedCoreDoesNothing :=
  fun k _ h => ⟨step_of_stopped h, run_of_stopped h k⟩

/-! ### Becoming HALTED -/

/-- A raise leaves a FAULTED core, never a HALTED one (R79). -/
theorem not_isHalted_raise (s : State) (e : Raise) : ¬ (s.raise e).isHalted := by
  rintro ⟨-, hfault⟩
  exact Option.some_ne_none _ hfault

/-- HLT alone clears `running` without a fault, and its successor address fits wherever it can be fetched (R86, R87). -/
theorem isHalted_exec_iff {i : Instr} {s t : State} (hrun : s.isRunning) (hp : s.pc.toNat ≤ 253)
    (hexec : exec i s = .next t) : t.isHalted ↔ i = .hlt := by
  obtain ⟨hrunning, hfault⟩ := hrun
  rcases exec_next_cases hexec with ⟨-, rfl⟩ | ⟨e, he, rfl⟩
  · rw [State.isHalted, effect_fault, and_iff_left hfault]
    cases i with
    | hlt => exact ⟨fun _ => rfl, fun _ => rfl⟩
    | _ => exact iff_of_false (ne_of_eq_of_ne hrunning (by decide)) Instr.noConfusion
  · refine iff_of_false (not_isHalted_raise s e) ?_
    rintro rfl
    have hnone : Instr.hlt.firstRaise s = none :=
      firstRaise_eq_none.2 ⟨List.forall_mem_nil _, show s.pc.toNat + 1 ≤ 255 by omega⟩
    exact Option.some_ne_none e (he.symm.trans hnone)

/-- Settles O12: a fetch that raises meets no HLT at `pc` ≤ 253, and a fetched instruction halts exactly if it is HLT. -/
theorem haltedExactlyByHlt : Obligations.HaltedExactlyByHlt := by
  intro s t hrun hstep
  rcases step_next_cases hstep with ⟨hstopped, -⟩ | ⟨-, e, hf, rfl⟩ | ⟨-, i, hf, hexec⟩
  · obtain ⟨hrunning, -⟩ := hrun
    simp [hstopped] at hrunning
  · refine iff_of_false (not_isHalted_raise s e) ?_
    rintro ⟨hp, hir⟩
    have hfetched : fetchInstr s = .ok .hlt := fetchInstr_of_decode hp (by rw [hir]; rfl)
    simp [hf] at hfetched
  · obtain ⟨hp, hir, -⟩ := fetchInstr_ok hf
    rw [isHalted_exec_iff hrun hp hexec, hir, opcode_eq_hlt_iff, and_iff_right hp]

end Machine
end Sys2Proof

/-! PROOF. HLT, LDI and PRN (41_system_and_data.md), each with its whole next state, and LDI followed by PRN, run from
memory. -/

namespace Sys2Proof.Machine

/-! ### Executing an instruction by the outcome of its checks -/

theorem exec_of_checks_pass {i : Instr} {s : State} (hregs : ∀ r ∈ i.accessed s.equal, r.toNat ≤ 7)
    (hp : s.pc.toNat + i.advanceBy s.equal ≤ 255) : exec i s = .next (i.effect s) :=
  exec_of_firstRaise_eq_none (firstRaise_eq_none.2 ⟨hregs, hp⟩)

theorem exec_of_firstRaise_eq_some {i : Instr} {s : State} {e : Raise} (h : i.firstRaise s = some e) :
    exec i s = .next (s.raise e) := by
  rw [exec_eq, h, Option.elim_some]

/-- The first checked operand's RegisterFault comes before every other fault (R145). -/
theorem exec_registerFault {i : Instr} {s : State} {r : Byte} {rest : List Byte}
    (hacc : i.accessed s.equal = r :: rest) (hr : 7 < r.toNat) :
    exec i s = .next (faultedState s .registerFault r.toNat) :=
  exec_of_firstRaise_eq_some (by rw [Instr.firstRaise, hacc, firstRaise, if_pos hr])

/-- Where every checked operand names a register, the successor address is the only fault left. -/
theorem exec_addressFault {i : Instr} {s : State} (hregs : ∀ r ∈ i.accessed s.equal, r.toNat ≤ 7)
    (hp : 255 < s.pc.toNat + i.advanceBy s.equal) :
    exec i s = .next (faultedState s .addressFault (s.pc.toNat + i.advanceBy s.equal)) := by
  cases he : i.firstRaise s with
  | none =>
    have hfits := (firstRaise_eq_none.1 he).2
    omega
  | some e =>
    rcases firstRaise_eq_some he with ⟨r, hmem, hr, -⟩ | ⟨-, rfl⟩
    · exact absurd (hregs r hmem) (by omega)
    · exact exec_of_firstRaise_eq_some he

/-! ### HLT -/

theorem exec_hlt {s : State} (hp : s.pc.toNat ≤ 253) :
    exec .hlt s = .next (s.halt.setPc (BitVec.ofNat 8 (s.pc.toNat + 1))) :=
  exec_of_checks_pass (List.forall_mem_nil _) (show s.pc.toNat + 1 ≤ 255 by omega)

/-- Settles O17: HLT checks no register and its successor address fits; the state it leaves is a stopped core. -/
theorem hltHalts : Obligations.HltHalts :=
  ⟨rfl, fun _ hp => ⟨exec_hlt hp, fun hfault => ⟨rfl, hfault⟩, step_of_stopped rfl⟩⟩

/-! ### LDI and PRN -/

theorem exec_ldi {s : State} {r : Byte} {k : Fin 8} (hk : r.toNat = k.val) (hp : s.pc.toNat + 3 ≤ 255) (imm : Byte) :
    exec (.ldi r imm) s = .next ((s.setReg k imm).setPc (BitVec.ofNat 8 (s.pc.toNat + 3))) := by
  rw [exec_of_checks_pass (List.forall_mem_singleton.2 (by omega)) hp, Instr.effect, Instr.update, operandReg_eq hk]
  rfl

theorem exec_prn {s : State} {r : Byte} {k : Fin 8} (hk : r.toNat = k.val) (hp : s.pc.toNat ≤ 253) :
    exec (.prn r) s = .next ((s.output (s.reg k)).setPc (BitVec.ofNat 8 (s.pc.toNat + 2))) := by
  rw [exec_of_checks_pass (List.forall_mem_singleton.2 (by omega)) (show s.pc.toNat + 2 ≤ 255 by omega),
    Instr.effect, Instr.update, operandReg_eq hk]
  rfl

/-- Settles O18: both checks pass, or the register check fails, or it passes and the successor address does not fit. -/
theorem ldiLoadsImmediate : Obligations.LdiLoadsImmediate :=
  fun _ imm _ => ⟨rfl, fun _ hk hp => exec_ldi hk hp imm, exec_registerFault rfl,
    fun hr hp => exec_addressFault (List.forall_mem_singleton.2 hr) hp⟩

/-- Settles O19: the register check passes and the successor address fits, or the register check fails. -/
theorem prnAppendsRegister : Obligations.PrnAppendsRegister :=
  fun _ _ => ⟨rfl, fun _ => exec_prn, exec_registerFault rfl⟩

/-! ### LDI, then PRN of the same register, from memory (R89) -/

/-- A running core at an LDI of register `k` whose successor address fits loads the immediate and moves on. -/
theorem step_ldi {s : State} {k : Fin 8} (hrun : s.running = true) (hp : s.pc.toNat + 3 ≤ 255)
    (hop : s.mem.read s.pc.toNat = 0x82) (hk : (s.mem.read (s.pc.toNat + 1)).toNat = k.val) :
    step s = .next ((s.setReg k (s.mem.read (s.pc.toNat + 2))).setPc (BitVec.ofNat 8 (s.pc.toNat + 3))) :=
  (step_of_decode hrun (by omega) (by rw [hop]; rfl)).trans (exec_ldi hk hp _)

/-- A running core at a PRN of register `k` outputs the register and moves on. -/
theorem step_prn {s : State} {k : Fin 8} (hrun : s.running = true) (hp : s.pc.toNat ≤ 253)
    (hop : s.mem.read s.pc.toNat = 0x47) (hk : (s.mem.read (s.pc.toNat + 1)).toNat = k.val) :
    step s = .next ((s.output (s.reg k)).setPc (BitVec.ofNat 8 (s.pc.toNat + 2))) :=
  (step_of_decode hrun hp (by rw [hop]; rfl)).trans (exec_prn hk hp)

/-- Settles O41: LDI leaves memory, so the PRN at `pc` + 3 is fetched next, and it reads the immediate back. -/
theorem loadThenPrintOutputs : Obligations.LoadThenPrintOutputs := by
  intro s k hrun hp hldi hr hprn hr'
  have hpc : (BitVec.ofNat 8 (s.pc.toNat + 3)).toNat = s.pc.toNat + 3 := toNat_ofNat_of_le (by omega)
  have hload := step_ldi hrun (by omega) hldi hr
  refine ⟨_, (run_succ 1 hload).trans (run_succ 0 (step_prn (k := k) hrun ?_ ?_ ?_)), ?_⟩
  · rw [State.setPc_pc, hpc]
    omega
  · rw [State.setPc_pc, hpc]
    exact hprn
  · rw [State.setPc_pc, hpc]
    exact hr'
  · rw [State.setPc_out, State.output_out, State.reg_setPc, State.reg_setReg_same, State.setPc_out, State.setReg_out]

end Sys2Proof.Machine

/-! PROOF. ADD, MUL and CMP (42_alu.md): what the shared ALU instruction completes with, the faults it shares with every
instruction of two register operands, and each instruction's whole next state. -/

namespace Sys2Proof.Machine

/-! ### The outcomes of an instruction of two register operands -/

/-- Where both operand bytes name registers and the successor address fits, the ALU's operation is committed. -/
theorem aluInstr_completes (op : AluOp) {ra rb : Byte} {a b : Fin 8} {s : State} (ha : ra.toNat = a.val)
    (hb : rb.toNat = b.val) (hp : s.pc.toNat + 3 ≤ 255) :
    aluInstr op ra rb s = .next ((alu op a b s).setPc (BitVec.ofNat 8 (s.pc.toNat + 3))) := by
  rcases aluInstr_cases s op ra rb with ⟨a', b', ha', hb', -, hdone⟩ | ⟨hra, -⟩ | ⟨-, hrb, -⟩ | ⟨-, -, hpc, -⟩
  · obtain rfl : a' = a := Fin.ext (ha'.symm.trans ha)
    obtain rfl : b' = b := Fin.ext (hb'.symm.trans hb)
    exact hdone
  all_goals omega

/-- The faults of an instruction that checks two register operands, in the order of R145. -/
theorem exec_faults_of_two_operands {i : Instr} {ra rb : Byte} {s : State} (hacc : i.accessed s.equal = [ra, rb]) :
    (7 < ra.toNat → exec i s = .next (faultedState s .registerFault ra.toNat)) ∧
    (ra.toNat ≤ 7 → 7 < rb.toNat → exec i s = .next (faultedState s .registerFault rb.toNat)) ∧
    (ra.toNat ≤ 7 → rb.toNat ≤ 7 → 255 < s.pc.toNat + i.advanceBy s.equal →
      exec i s = .next (faultedState s .addressFault (s.pc.toNat + i.advanceBy s.equal))) := by
  refine ⟨exec_registerFault hacc, fun ha hb => ?_, fun ha hb => exec_addressFault ?_⟩
  · have hraise : i.firstRaise s = some ⟨.registerFault, rb.toNat⟩ := by
      rw [Instr.firstRaise, hacc, firstRaise, if_neg (Nat.not_lt.2 ha), firstRaise, if_pos hb]
    exact exec_of_firstRaise_eq_some hraise
  · rw [hacc]
    exact List.forall_mem_cons.2 ⟨ha, List.forall_mem_singleton.2 hb⟩

/-! ### ADD and MUL: arithmetic modulo 256 (R96) -/

theorem byte_add_eq (v w : Byte) : v + w = BitVec.ofNat 8 ((v.toNat + w.toNat) % 256) :=
  BitVec.eq_of_toNat_eq (by simp)

theorem byte_mul_eq (v w : Byte) : v * w = BitVec.ofNat 8 ((v.toNat * w.toNat) % 256) :=
  BitVec.eq_of_toNat_eq (by simp)

/-- Settles O20: the byte sum is the integer sum modulo 256, and the faults are those of two register operands. -/
theorem addWritesSumModulo256 : Obligations.AddWritesSumModulo256 := by
  intro ra rb s
  refine ⟨rfl, fun a b ha hb hp => ?_, exec_faults_of_two_operands rfl⟩
  rw [← byte_add_eq]
  exact aluInstr_completes .add ha hb hp

/-- Settles O21: the byte product is the integer product modulo 256, and the faults are those of two register operands. -/
theorem mulWritesProductModulo256 : Obligations.MulWritesProductModulo256 := by
  intro ra rb s
  refine ⟨rfl, fun a b ha hb hp => ?_, exec_faults_of_two_operands rfl⟩
  rw [← byte_mul_eq]
  exact aluInstr_completes .mul ha hb hp

/-! ### CMP: the unsigned relations (R97, R103) -/

theorem compareFlags_eq (v w : Byte) :
    compareFlags v w = ⟨decide (v.toNat = w.toNat), decide (v.toNat < w.toNat), decide (w.toNat < v.toNat)⟩ := by
  rcases compareFlags_cases v w with ⟨rfl, hf⟩ | ⟨hlt, hf⟩ | ⟨hgt, hf⟩
  · simp [hf]
  · simp [hf, hlt, hlt.ne, hlt.le]
  · simp [hf, hgt, hgt.ne', hgt.le]

/-- Settles O22: the three flags are the three relations, and the faults are those of two register operands. -/
theorem cmpSetsOneFlag : Obligations.CmpSetsOneFlag := by
  intro ra rb s
  refine ⟨rfl, fun a b ha hb hp => ?_, exec_faults_of_two_operands rfl⟩
  have hdone := aluInstr_completes .cmp ha hb hp
  rw [alu, compareFlags_eq] at hdone
  exact hdone

end Sys2Proof.Machine

/-! PROOF. PUSH and POP (43_stack.md), each with its whole next state, and PUSH followed by POP, run from memory. -/

namespace Sys2Proof.Machine

/-! ### PUSH (R111, R112) -/

theorem exec_push {s : State} {r : Byte} {k : Fin 8} (hk : r.toNat = k.val) (hp : s.pc.toNat ≤ 253) :
    exec (.push r) s = .next ((s.pushByte (s.decSp.reg k)).setPc (BitVec.ofNat 8 (s.pc.toNat + 2))) := by
  rw [exec_of_checks_pass (List.forall_mem_singleton.2 (by omega)) (show s.pc.toNat + 2 ≤ 255 by omega),
    Instr.effect, Instr.update, operandReg_eq hk]
  rfl

/-- Settles O23: the memory is that of the push, and the pushed byte is the register's after the decrement. -/
theorem pushStoresBelowStackTop : Obligations.PushStoresBelowStackTop := by
  refine fun r s => ⟨rfl, fun k hk hp hwf => ?_, exec_registerFault rfl⟩
  refine ⟨(s.pushByte (s.decSp.reg k)).mem, ?_, State.pushByte_mem_wf hwf _, ?_, fun c hc => ?_⟩
  · rw [exec_push hk hp, State.pushByte, State.sp_decSp]
    rfl
  · rw [← State.sp_decSp, State.read_pushByte_same hwf, State.reg_decSp, State.sp_decSp]
  · exact State.read_pushByte_ne s _ (by rwa [State.sp_decSp])

/-! ### POP (R114, R115) -/

theorem exec_pop {s : State} {r : Byte} {k : Fin 8} (hk : r.toNat = k.val) (hp : s.pc.toNat ≤ 253) :
    exec (.pop r) s =
      .next ((s.setReg k (s.mem.read s.sp.toNat)).incSp.setPc (BitVec.ofNat 8 (s.pc.toNat + 2))) := by
  rw [exec_of_checks_pass (List.forall_mem_singleton.2 (by omega)) (show s.pc.toNat + 2 ≤ 255 by omega),
    Instr.effect, Instr.update, operandReg_eq hk]
  rfl

theorem State.sp_setReg_eq_ite (s : State) (k : Fin 8) (v : Byte) :
    (s.setReg k v).sp = if k = 7 then v else s.sp := by
  split
  case isTrue h =>
    subst h
    exact State.reg_setReg_same s 7 v
  case isFalse h => exact State.sp_setReg s h v

/-- Settles O24: the increment reads the byte just loaded exactly if that went into `x[7]`. -/
theorem popLoadsStackTop : Obligations.PopLoadsStackTop := by
  refine fun r s => ⟨rfl, fun k hk hp => ?_, exec_registerFault rfl⟩
  rw [exec_pop hk hp, State.incSp, State.sp_setReg_eq_ite, apply_ite (· + 1)]
  rfl

/-! ### PUSH, then POP, from memory (R116) -/

/-- A running core at a POP of register `k` whose successor address fits pops into the register and moves on. -/
theorem step_pop {s : State} {k : Fin 8} (hrun : s.running = true) (hp : s.pc.toNat ≤ 253)
    (hop : s.mem.read s.pc.toNat = 0x46) (hk : (s.mem.read (s.pc.toNat + 1)).toNat = k.val) :
    step s = .next ((s.setReg k (s.mem.read s.sp.toNat)).incSp.setPc (BitVec.ofNat 8 (s.pc.toNat + 2))) :=
  (step_of_decode hrun hp (by rw [hop]; rfl)).trans (exec_pop hk hp)

/-- The increment undoes the decrement, also where that wraps. -/
theorem State.incSp_decSp (s : State) : s.decSp.incSp = s := by
  rw [State.incSp, State.sp_decSp, BitVec.sub_add_cancel, State.decSp, State.setReg_setReg_same]
  simp [State.setReg, State.sp, State.reg]

/-- The registers after a push and a pop into a register other than `x[7]`. -/
theorem State.x_incSp_setReg_pushByte (s : State) {k : Fin 8} (hk : k ≠ 7) (v w : Byte) :
    ((s.pushByte w).setReg k v).incSp.x = s.x.set k v := by
  have hrestored : (s.pushByte w).incSp.x = s.x :=
    calc (s.pushByte w).incSp.x
      _ = s.decSp.incSp.x := rfl
      _ = s.x := by rw [State.incSp_decSp]
  rw [State.incSp_setReg _ hk, State.setReg_x, hrestored]

/-- Settles O38: the POP is fetched as it stood, its bytes not being the pushed cell, and it loads the pushed byte. -/
theorem pushThenPopRestores : Obligations.PushThenPopRestores := by
  intro s j k hj hk hrun hwf hp hpush hj' hpop hk' hsp hsp'
  rw [← State.sp_decSp] at hsp hsp' ⊢
  have hpc : (BitVec.ofNat 8 (s.pc.toNat + 2)).toNat = s.pc.toNat + 2 := toNat_ofNat_of_le (by omega)
  have hpushed : (s.pushByte (s.decSp.reg j)).mem.read s.decSp.sp.toNat = s.reg j := by
    rw [State.read_pushByte_same hwf, State.reg_decSp, if_neg hj]
  have hfirst := step_push hrun (by omega) hpush hj'
  refine ⟨_, (run_succ 1 hfirst).trans (run_succ 0 (step_pop (k := k) hrun ?_ ?_ ?_)), ?_, ?_, hpushed⟩
  · rw [State.setPc_pc, hpc]
    omega
  · rw [State.setPc_pc, hpc, State.setPc_mem, State.read_pushByte_ne s _ hsp.symm, hpop]
  · rw [State.setPc_pc, hpc, State.setPc_mem, State.read_pushByte_ne s _ hsp'.symm, hk']
  · rw [← hpushed]
    exact s.x_incSp_setReg_pushByte hk _ (s.decSp.reg j)
  · rw [State.setPc_pc, State.setPc_pc, hpc, toNat_ofNat_of_le (by omega)]

end Sys2Proof.Machine

/-! PROOF. JMP, JEQ, JNE, CALL and RET (44_control_flow.md), each with its whole next state; a branch after a comparison;
and a RET after a CALL. -/

namespace Sys2Proof.Machine

/-! ### JMP, and the two outcomes of a branch (R125, R127, R130) -/

theorem jumpTo_ok {r : Byte} {k : Fin 8} (hk : r.toNat = k.val) (s : State) : jumpTo r s = .ok (s.setPc (s.reg k)) := by
  rw [jumpTo, regOperand_ok hk, except_ok_bind]

/-- Settles O27: JMP is the jump, whose register check passes or fails. -/
theorem jmpJumpsToRegister : Obligations.JmpJumpsToRegister :=
  fun _ s => ⟨rfl, fun _ hk => congrArg (attempt s) (jumpTo_ok hk s), exec_registerFault rfl⟩

/-- A taken branch jumps. -/
theorem attempt_branch_taken {taken : Bool} (h : taken = true) {r : Byte} {k : Fin 8} (hk : r.toNat = k.val) (s : State) :
    attempt s (branch taken r s) = .next (s.setPc (s.reg k)) := by
  rw [branch, if_pos h, jumpTo_ok hk, attempt_ok]

/-- A branch that is not taken advances by 2, whatever its operand byte. -/
theorem attempt_branch_not_taken {taken : Bool} (h : taken = false) (r : Byte) {s : State} (hp : s.pc.toNat ≤ 253) :
    attempt s (branch taken r s) = .next (s.setPc (BitVec.ofNat 8 (s.pc.toNat + 2))) := by
  rw [branch, if_neg (Bool.eq_false_iff.1 h), advance_ok s (by omega), attempt_ok]

/-- Settles O28: JEQ is the branch taken when `E = 1`, and only then does it check its operand. -/
theorem jeqJumpsWhenEqual : Obligations.JeqJumpsWhenEqual := by
  refine fun r s => ⟨rfl, fun he k hk => attempt_branch_taken he hk s, fun he hp => attempt_branch_not_taken he r hp,
    fun he hr => exec_registerFault (rest := []) ?_ hr⟩
  rw [Instr.accessed, if_pos he]

/-- Settles O29: JNE is the branch taken when `E = 0`, and only then does it check its operand. -/
theorem jneJumpsWhenNotEqual : Obligations.JneJumpsWhenNotEqual := by
  refine fun r s => ⟨rfl, fun he k hk => attempt_branch_taken (congrArg not he) hk s,
    fun he hp => attempt_branch_not_taken (congrArg not he) r hp,
    fun he hr => exec_registerFault (rest := []) ?_ hr⟩
  rw [Instr.accessed, he, Bool.not_false, if_pos rfl]

/-! ### A branch after CMP (R103 with R127 and R130) -/

/-- CMP moves on by 3 and leaves the registers; its flag `E` is the equality of the two operands. -/
theorem exec_cmp_equal {ra rb : Byte} {a b : Fin 8} {s : State} (ha : ra.toNat = a.val) (hb : rb.toNat = b.val)
    (hp : s.pc.toNat + 3 ≤ 255) :
    ∃ t, exec (.cmp ra rb) s = .next t ∧ t.x = s.x ∧ t.pc.toNat = s.pc.toNat + 3 ∧
      t.equal = decide (s.reg a = s.reg b) := by
  obtain ⟨-, hdone, -⟩ := cmpSetsOneFlag ra rb s
  exact ⟨_, hdone a b ha hb hp, rfl, toNat_ofNat_of_le hp, decide_eq_decide.2 BitVec.toNat_inj⟩

/-- Settles O40: `E` after the CMP decides which of the two branches is taken. -/
theorem branchFollowsComparison : Obligations.BranchFollowsComparison := by
  intro s ra rb r a b k ha hb hk hp
  obtain ⟨t, hcmp, hx, hpc, hequal⟩ := exec_cmp_equal ha hb (show s.pc.toNat + 3 ≤ 255 by omega)
  have hreg : s.reg k = t.reg k := by rw [State.reg, State.reg, hx]
  have hnext : s.pc.toNat + 5 = t.pc.toNat + 2 := by omega
  obtain ⟨-, hjeq_jumps, hjeq_falls, -⟩ := jeqJumpsWhenEqual r t
  obtain ⟨-, hjne_jumps, hjne_falls, -⟩ := jneJumpsWhenNotEqual r t
  rw [hreg, hnext]
  refine ⟨t, hcmp, fun heq => ?_, fun hne => ?_⟩
  · have he : t.equal = true := hequal.trans (decide_eq_true heq)
    exact ⟨hjeq_jumps he k hk, hjne_falls he (by omega)⟩
  · have he : t.equal = false := hequal.trans (decide_eq_false hne)
    exact ⟨hjne_jumps he k hk, hjeq_falls he (by omega)⟩

/-! ### CALL (R121, R122) and RET (R123) -/

theorem exec_call {s : State} {r : Byte} {k : Fin 8} (hk : r.toNat = k.val) :
    exec (.call r) s = .next ((s.pushByte (BitVec.ofNat 8 (s.pc.toNat + 2))).setPc (s.decSp.reg k)) := by
  have hpc : s.pc.toNat + 0 ≤ 255 := by omega
  rw [exec_of_checks_pass (List.forall_mem_singleton.2 (by omega)) hpc, Instr.effect, Instr.target, operandReg_eq hk]
  rfl

/-- Settles O25: the memory is that of the push of `pc + 2`, a byte as it fits, and the target is read after the
decrement. -/
theorem callPushesReturnAddress : Obligations.CallPushesReturnAddress := by
  refine fun r s => ⟨rfl, fun k hk hp hwf => ?_, exec_registerFault rfl⟩
  refine ⟨(s.pushByte (BitVec.ofNat 8 (s.pc.toNat + 2))).mem, ?_, State.pushByte_mem_wf hwf _, ?_, fun c hc => ?_⟩
  · rw [exec_call hk, State.reg_decSp]
    rfl
  · rw [← State.sp_decSp, State.read_pushByte_same hwf, toNat_ofNat_of_le (by omega)]
  · exact State.read_pushByte_ne s _ (by rwa [State.sp_decSp])

theorem exec_ret (s : State) : exec .ret s = .next (s.incSp.setPc (s.mem.read s.sp.toNat)) :=
  exec_of_checks_pass (List.forall_mem_nil _) (show s.pc.toNat + 0 ≤ 255 by omega)

/-- Settles O26: RET has no check that can fail. -/
theorem retPopsProgramCounter : Obligations.RetPopsProgramCounter := ⟨rfl, exec_ret⟩

/-! ### CALL, then a RET with the stack pointer and the return address kept, from memory (R132) -/

/-- A running core at a CALL of register `k` pushes the return address and jumps. -/
theorem step_call {s : State} {k : Fin 8} (hrun : s.running = true) (hp : s.pc.toNat ≤ 253)
    (hop : s.mem.read s.pc.toNat = 0x50) (hk : (s.mem.read (s.pc.toNat + 1)).toNat = k.val) :
    step s = .next ((s.pushByte (BitVec.ofNat 8 (s.pc.toNat + 2))).setPc (s.decSp.reg k)) :=
  (step_of_decode hrun hp (by rw [hop]; rfl)).trans (exec_call hk)

/-- A running core at a RET pops the stack top into `pc`. -/
theorem step_ret {s : State} (hrun : s.running = true) (hp : s.pc.toNat ≤ 253) (hop : s.mem.read s.pc.toNat = 0x11) :
    step s = .next (s.incSp.setPc (s.mem.read s.sp.toNat)) :=
  (step_of_decode hrun hp (by rw [hop]; rfl)).trans (exec_ret s)

/-- Settles O39: the RET pops the byte that the CALL pushed, and its increment undoes the CALL's decrement. -/
theorem retReturnsAfterCall : Obligations.RetReturnsAfterCall := by
  intro s k hrun hwf hp hcall hk
  refine ⟨_, step_call hrun hp hcall hk, fun u hurun hup hret hsp hcell => ?_⟩
  have hreturn : u.mem.read u.sp.toNat = BitVec.ofNat 8 (s.pc.toNat + 2) :=
    hcell.trans (State.read_pushByte_same hwf _)
  have hdec : u.sp = s.sp - 1 := hsp.trans (State.sp_decSp s)
  refine ⟨_, step_ret hurun hup hret, ?_, ?_⟩
  · rw [State.setPc_pc, hreturn, toNat_ofNat_of_le (by omega)]
  · calc (u.incSp.setPc (u.mem.read u.sp.toNat)).sp
      _ = u.sp + 1 := State.sp_incSp u
      _ = s.sp := by rw [hdec, BitVec.sub_add_cancel]

end Sys2Proof.Machine

/-! PROOF. The priority of the faults of one step (60_exceptions.md R145), and that a fault is precise (R146). -/

namespace Sys2Proof

open Machine

/-! ### The checks of a decoded instruction, by its bytes (R142, R143) -/

/-- The instruction of the opcode byte accesses `x[op_1]` (R143): not HLT, not RET, and a branch only when it is taken. -/
abbrev accessesFirst (ir : Byte) (equal : Bool) : Prop :=
  ir ≠ 0x01 ∧ ir ≠ 0x11 ∧ (ir = 0x55 → equal = true) ∧ (ir = 0x56 → equal = false)

/-- The instruction of the opcode byte accesses `x[op_2]` (R143): ADD, MUL and CMP. -/
abbrev accessesSecond (ir : Byte) : Prop := ir ∈ ([0xA0, 0xA2, 0xA7] : List Byte)

/-- The instruction of the opcode byte is one of those with `advance(3)` (R142): LDI, ADD, MUL and CMP. -/
abbrev advancesByThree (ir : Byte) : Prop := ir ∈ ([0x82, 0xA0, 0xA2, 0xA7] : List Byte)

theorem accessed_of_decode {ir op1 op2 : Byte} {i : Instr} (h : decode ir op1 op2 = .ok i) (equal : Bool) :
    i.accessed equal =
      (if accessesFirst ir equal then [op1] else []) ++ (if accessesSecond ir then [op2] else []) := by
  obtain ⟨rfl, hbytes⟩ := decode_ok h
  cases i with
  | hlt | ret => rfl
  | prn r | push r | pop r | call r | jmp r =>
    obtain rfl : op1 = r := List.head_eq_of_cons_eq hbytes
    rfl
  | jeq r | jne r =>
    obtain rfl : op1 = r := List.head_eq_of_cons_eq hbytes
    cases equal <;> rfl
  | ldi r b | mul r b | add r b | cmp r b =>
    obtain ⟨rfl, htail⟩ := List.cons.inj hbytes
    obtain rfl : op2 = b := List.head_eq_of_cons_eq htail
    rfl

theorem advanceBy_eq_three_iff (i : Instr) (equal : Bool) : i.advanceBy equal = 3 ↔ advancesByThree i.opcode := by
  cases i with
  | ldi r b | mul r b | add r b | cmp r b => exact iff_of_true rfl (by simp [Instr.opcode])
  | jeq r | jne r => cases equal <;> exact iff_of_false (Nat.ne_of_beq_eq_false rfl) (by simp [Instr.opcode])
  | _ => exact iff_of_false (Nat.ne_of_beq_eq_false rfl) (by simp [Instr.opcode])

namespace Machine

/-- A check that is made only under a condition. -/
theorem firstRaise_ite_append (pc r : Byte) (n : Nat) (rest : List Byte) (c : Prop) [Decidable c] :
    firstRaise pc n ((if c then [r] else []) ++ rest) =
      if 7 < r.toNat ∧ c then some ⟨.registerFault, r.toNat⟩ else firstRaise pc n rest := by
  by_cases hc : c <;> simp [hc, firstRaise]

/-- The faults 3 to 5 of R145, which the fetched opcode can raise: on `op_1`, on `op_2`, and from `advance(3)`. -/
def State.operandRaise (s : State) : Option Raise :=
  let ir := s.mem.read s.pc.toNat
  let op1 := s.mem.read (s.pc.toNat + 1)
  let op2 := s.mem.read (s.pc.toNat + 2)
  if 7 < op1.toNat ∧ accessesFirst ir s.equal then some ⟨.registerFault, op1.toNat⟩
  else if 7 < op2.toNat ∧ accessesSecond ir then some ⟨.registerFault, op2.toNat⟩
  else if s.pc.toNat = 253 ∧ advancesByThree ir then some ⟨.addressFault, 256⟩
  else none

/-- At `pc` ≤ 253 a successor address that does not fit is 253 + 3. -/
theorem firstRaise_nil_of_le (i : Instr) {s : State} (hp : s.pc.toNat ≤ 253) :
    firstRaise s.pc (i.advanceBy s.equal) [] =
      if s.pc.toNat = 253 ∧ advancesByThree i.opcode then some ⟨.addressFault, 256⟩ else none := by
  have hle := i.advanceBy_le_length s.equal
  have hlen := (length_bounds i).2
  have hthree := advanceBy_eq_three_iff i s.equal
  rw [firstRaise]
  by_cases hover : 255 < s.pc.toNat + i.advanceBy s.equal
  · obtain ⟨hpc, hadv⟩ : s.pc.toNat = 253 ∧ i.advanceBy s.equal = 3 := by omega
    rw [if_pos hover, if_pos ⟨hpc, hthree.1 hadv⟩, hpc, hadv]
  · rw [if_neg hover, if_neg]
    rintro ⟨hpc, hrow⟩
    have hadv := hthree.2 hrow
    omega

theorem firstRaise_eq_operandRaise {s : State} {i : Instr} (hp : s.pc.toNat ≤ 253)
    (h : decode (s.mem.read s.pc.toNat) (s.mem.read (s.pc.toNat + 1)) (s.mem.read (s.pc.toNat + 2)) = .ok i) :
    i.firstRaise s = s.operandRaise := by
  obtain ⟨hop, -⟩ := decode_ok h
  rw [Instr.firstRaise, accessed_of_decode h, firstRaise_ite_append, ← List.append_nil (ite _ [_] _),
    firstRaise_ite_append, firstRaise_nil_of_le i hp, ← hop, State.operandRaise]

/-! ### The step of a running core, by the first fault that applies (R145) -/

theorem step_of_opcode {s : State} (hrun : s.running = true) (hp : s.pc.toNat ≤ 253)
    (hir : s.mem.read s.pc.toNat ∈ opcodeBytes) : ∃ i, step s = exec i s ∧ i.firstRaise s = s.operandRaise := by
  rcases fetchInstr_cases s with ⟨hgt, -⟩ | ⟨-, hnot, -⟩ | ⟨-, i, hf, hd⟩
  · omega
  · exact absurd hir hnot
  · exact ⟨i, step_of_fetchInstr_ok hrun hf, firstRaise_eq_operandRaise hp hd⟩

theorem step_of_operandRaise_eq_some {s : State} {e : Raise} (hrun : s.running = true) (hp : s.pc.toNat ≤ 253)
    (hir : s.mem.read s.pc.toNat ∈ opcodeBytes) (he : s.operandRaise = some e) : step s = .next (s.raise e) := by
  obtain ⟨i, hstep, hraise⟩ := step_of_opcode hrun hp hir
  exact hstep.trans (exec_of_firstRaise_eq_some (hraise.trans he))

theorem step_of_operandRaise_eq_none {s : State} (hrun : s.running = true) (hp : s.pc.toNat ≤ 253)
    (hir : s.mem.read s.pc.toNat ∈ opcodeBytes) (he : s.operandRaise = none) :
    ∃ t, step s = .next t ∧ t.fault = s.fault := by
  obtain ⟨i, hstep, hraise⟩ := step_of_opcode hrun hp hir
  exact ⟨i.effect s, hstep.trans (exec_of_firstRaise_eq_none (hraise.trans he)), effect_fault i s⟩

/-- Settles O8: a fault of the fetch or of the dispatch, else the instruction's first raise, which its bytes decide, else
its effect. -/
theorem faultPriority : Obligations.FaultPriority := by
  intro s hrun ir op1 op2
  split_ifs with htop hir hop1 hop2 hadv
  · exact step_of_pc_gt hrun htop
  · exact step_of_operandRaise_eq_some hrun (by omega) hir (if_pos hop1)
  · exact step_of_operandRaise_eq_some hrun (by omega) hir ((if_neg hop1).trans (if_pos hop2))
  · exact step_of_operandRaise_eq_some hrun (by omega) hir
      ((if_neg hop1).trans ((if_neg hop2).trans (if_pos hadv)))
  · exact step_of_operandRaise_eq_none hrun (by omega) hir
      ((if_neg hop1).trans ((if_neg hop2).trans (if_neg hadv)))
  · exact step_of_not_opcode hrun (by omega) hir

/-! ### Fault entry changes nothing but the latch and `running` (R146, R76) -/

/-- Settles O9: a stopped core and an effect keep the latch; a raise, of the fetch or of the instruction, is a fault
entry. -/
theorem faultsArePrecise : Obligations.FaultsArePrecise := by
  intro s t hstep
  rcases step_next_cases hstep with ⟨-, rfl⟩ | ⟨hrun, e, -, rfl⟩ | ⟨hrun, i, -, hexec⟩
  · exact .inl rfl
  · exact .inr ⟨hrun, e.cause, e.info, rfl⟩
  · rcases exec_next_cases hexec with ⟨-, rfl⟩ | ⟨e, -, rfl⟩
    · exact .inl (effect_fault i s)
    · exact .inr ⟨hrun, e.cause, e.info, rfl⟩

end Machine
end Sys2Proof

/-! PROOF. The step is total (70_reset_and_hazards.md R171), the states that reset and load leave meet the invariant (R165,
R166), and the empty image faults at once (R167). -/

namespace Sys2Proof.Machine

/-! ### Every instruction, step and run answers a next state (R171) -/

theorem exec_answers (i : Instr) (s : State) : ∃ t, exec i s = .next t :=
  ⟨_, exec_eq i s⟩

theorem step_answers (s : State) : ∃ t, step s = .next t := by
  rcases step_cases s with ⟨-, hs⟩ | ⟨-, e, -, hs⟩ | ⟨-, i, -, hs⟩
  · exact ⟨s, hs⟩
  · exact ⟨s.raise e, hs⟩
  · rw [hs]
    exact exec_answers i s

theorem run_answers (k : Nat) (s : State) : ∃ t, run k s = .next t := by
  induction k generalizing s with
  | zero => exact ⟨s, run_zero s⟩
  | succ k ih =>
    obtain ⟨u, hu⟩ := step_answers s
    rw [run_succ k hu]
    exact ih u

/-- Settles O11: an instruction answers its effect or a fault entry, a step one of these or the same state, and so, by
induction on the budget, does a run. -/
theorem everyStepAnswers : Obligations.EveryStepAnswers :=
  ⟨exec_answers, step_answers, run_answers⟩

/-! ### Reset and load meet the invariant (R165, R166) -/

/-- Memory is the only field in which the states after reset and after load differ, so its canonical form is all that the
invariant asks of them: no flag is set and the latch is clear. -/
theorem inv_resetWith_mem (spReset : Byte) {m : Memory} (h : m.wf = true) :
    ({ State.resetWith spReset with mem := m } : State).Inv :=
  ⟨h, ⟨rfl, rfl, rfl⟩, fun f hf => absurd hf (Option.not_mem_none f)⟩

theorem inv_resetWith (spReset : Byte) : (State.resetWith spReset).Inv :=
  inv_resetWith_mem spReset (reset_memory_wf spReset)

/-- Settles O44: the fixed reset state is the one for `Config.spReset`. -/
theorem resetMeetsInvariant : Obligations.ResetMeetsInvariant :=
  ⟨inv_resetWith Config.spReset, inv_resetWith⟩

/-- An image that is not refused fits, and the core starts with it loaded into the empty memory (R185). -/
theorem start_eq_some {spReset : Byte} {image : List Nat} {s : State} (h : start spReset image = some s) :
    image.length ≤ 256 ∧ s = { State.resetWith spReset with mem := Memory.loadFrom [] Config.loadBase image } := by
  obtain ⟨hwf, hs⟩ := Option.ite_none_right_eq_some.1 h
  obtain ⟨hlen, -⟩ := Bool.and_eq_true_iff.1 hwf
  exact ⟨of_decide_eq_true hlen, (Option.some.inj hs).symm⟩

/-- Settles O45: loading an image that fits keeps the canonical form of the empty memory. -/
theorem loadMeetsInvariant : Obligations.LoadMeetsInvariant := by
  intro spReset image s hstart
  obtain ⟨hlen, rfl⟩ := start_eq_some hstart
  exact inv_resetWith_mem spReset (Memory.loadFrom_wf rfl (by rwa [Config.loadBase, Nat.zero_add]))

/-! ### The empty image (R167) -/

/-- Settles O16: the byte at `pc` = 0 is the fill value 0, which is no opcode. -/
theorem emptyImageFaults : Obligations.EmptyImageFaults := by
  intro spReset
  refine ⟨State.resetWith spReset, start_of_fits spReset (Nat.zero_le 256) (List.forall_mem_nil _), ?_⟩
  have hfill : (State.resetWith spReset).mem.read (State.resetWith spReset).pc.toNat = 0 := Memory.read_nil _
  have hfault := step_of_not_opcode (s := State.resetWith spReset) rfl (Nat.zero_le 253)
    (by rw [hfill]; decide)
  rw [hfill] at hfault
  exact hfault

end Sys2Proof.Machine

/-! PROOF. The host interface (80_host_interface.md): which images it refuses (R185), that the output channel grows at
its end alone, and the numeral it prints for a byte (R189). -/

namespace Sys2Proof.Machine

/-! ### The images that are refused (R185, D15) -/

theorem imageWellFormed_iff {image : List Nat} :
    imageWellFormed image = true ↔ image.length ≤ 256 ∧ ∀ b ∈ image, b < 256 := by
  simp [imageWellFormed]

theorem start_eq_none_iff {spReset : Byte} {image : List Nat} :
    start spReset image = none ↔ ¬ imageWellFormed image = true := by
  simp [start]

/-- Settles O15: an image is refused when it fails the check, and to fail it is to break one of its two bounds. -/
theorem badImageIsRefused : Obligations.BadImageIsRefused := by
  intro spReset image
  rw [start_eq_none_iff, imageWellFormed_iff, not_and_or]
  push Not
  exact Iff.rfl

/-! ### The output channel grows at its end (R189) -/

/-- Only an effect appends; a stopped core and a fault entry leave the channel as it is. -/
theorem step_out_prefix {s t : State} (h : step s = .next t) : s.out <+: t.out := by
  rcases step_next_cases h with ⟨-, rfl⟩ | ⟨-, e, -, rfl⟩ | ⟨-, i, -, hexec⟩
  · exact List.prefix_rfl
  · exact List.prefix_rfl
  · rcases exec_next_cases hexec with ⟨-, rfl⟩ | ⟨e, -, rfl⟩
    · exact ⟨i.emits s, (effect_out i s).symm⟩
    · exact List.prefix_rfl

theorem run_out_prefix {k : Nat} {s t : State} (h : run k s = .next t) : s.out <+: t.out := by
  induction k generalizing s with
  | zero =>
    obtain ⟨⟩ := h
    exact List.prefix_rfl
  | succ k ih =>
    obtain ⟨u, hstep, hrun⟩ := run_succ_next h
    exact (step_out_prefix hstep).trans (ih hrun)

/-- Settles O35: the output after a run begins with the output before it. -/
theorem outputIsAppendOnly : Obligations.OutputIsAppendOnly := by
  intro k s t hrun
  obtain ⟨d, hd⟩ := run_out_prefix hrun
  exact ⟨d, hd.symm⟩

/-! ### The numeral of a byte (R189) -/

theorem toNat_digitChar {d : Nat} (h : d < 10) : (digitChar d).toNat = 48 + d := by
  interval_cases d <;> rfl

theorem digitChar_eq_zero {d : Nat} (h : d < 10) (hd : digitChar d = Char.ofNat 48) : d = 0 := by
  have hcode : 48 + d = 48 := (toNat_digitChar h).symm.trans (congrArg Char.toNat hd)
  omega

/-- The numeral of a byte other than 0 is its base-10 digits, the most significant first. -/
theorem renderByte_eq_digits {v : Byte} (hv : v.toNat ≠ 0) :
    renderByte v = (Nat.digits 10 v.toNat).reverse.map digitChar := by
  have hlt : v.toNat < 256 := v.isLt
  simp only [renderByte]
  generalize v.toNat = n at hv hlt
  split_ifs with h10 h100
  · rw [Nat.digits_of_lt 10 n hv h10]
    rfl
  · rw [Nat.digits_def' (by decide) (by omega), Nat.digits_of_lt 10 (n / 10) (by omega) (by omega)]
    rfl
  · rw [Nat.digits_def' (by decide) (by omega), Nat.digits_def' (by decide) (by omega), Nat.div_div_eq_div_mul,
      Nat.digits_of_lt 10 (n / (10 * 10)) (by omega) (by omega)]
    rfl

/-- Reading decimal characters as a number, the most significant first, gives the number of the digits. -/
theorem foldl_reverse_map_digitChar {ds : List Nat} (h : ∀ d ∈ ds, d < 10) :
    (ds.reverse.map digitChar).foldl (fun n c => 10 * n + (c.toNat - 48)) 0 = Nat.ofDigits 10 ds := by
  induction ds with
  | nil => rfl
  | cons d ds ih =>
    obtain ⟨hd, hds⟩ := List.forall_mem_cons.1 h
    rw [List.reverse_cons, List.map_append, List.foldl_append, ih hds, Nat.ofDigits_cons]
    simp [toNat_digitChar hd, Nat.add_comm]

/-- Settles O48: the numeral of 0 is the one digit 0; any other is made of the digits of `Nat.digits`, whose last, and
so most significant, is not 0. -/
theorem numeralDenotesByte : Obligations.NumeralDenotesByte := by
  intro v
  by_cases hzero : v = 0
  · subst hzero
    exact ⟨rfl, List.forall_mem_singleton.2 (by decide), fun _ => rfl, Nat.le_refl 1⟩
  have hv : v.toNat ≠ 0 := fun h => hzero (BitVec.eq_of_toNat_eq h)
  have hdigit : ∀ d ∈ Nat.digits 10 v.toNat, d < 10 := fun _ => Nat.digits_lt_base (by decide)
  have hne : Nat.digits 10 v.toNat ≠ [] := Nat.digits_ne_nil_iff_ne_zero.2 hv
  rw [renderByte_eq_digits hv]
  refine ⟨?_, ?_, ?_, ?_⟩
  · rw [foldl_reverse_map_digitChar hdigit, Nat.ofDigits_digits]
  · intro c hc
    obtain ⟨d, hd, rfl⟩ := List.mem_map.1 hc
    have hlt := hdigit d (List.mem_reverse.1 hd)
    rw [toNat_digitChar hlt]
    omega
  · intro hhead
    rw [List.head?_map, List.head?_reverse, List.getLast?_eq_some_getLast hne, Option.map_some] at hhead
    have hlast := digitChar_eq_zero (hdigit _ (List.getLast_mem hne)) (Option.some.inj hhead)
    exact absurd hlast (Nat.getLast_digit_ne_zero 10 hv)
  · rw [List.length_map, List.length_reverse]
    exact List.length_pos_iff.2 hne

end Sys2Proof.Machine
